-- ==== Sys2Proof/Word.lean ====
section
/-! DEFINITION. The widths the spec fixes: 32-bit registers and instruction words, 8-bit program bytes (rules R7, R20, R41). -/

namespace Sys2Proof

/-- A general-purpose register, the pc, or a 32-bit instruction word (rules R7, R25, R55). -/
abbrev Word := BitVec 32

/-- One byte of program memory (rule R41). -/
abbrev Byte := BitVec 8

end Sys2Proof
end

