-- ==== Sys2Proof/Syntax.lean ====
section
/-! DEFINITION. The instruction as decoded: one constructor per row of spec/opcode_table.json (rule R2). -/

namespace Sys2Proof

/-- ISET: the two AArch32 instruction sets (rules R2, R28). -/
inductive ISet where
  | a32
  | t32
deriving DecidableEq, Repr

/-- The number of a general-purpose register as a 4-bit field names it, 0 to 15 (rule R20). -/
abbrev RegNum := Fin 16

/-- A bit position in a register, 0 to 31 (rule R7). -/
abbrev BitPos := Fin 32

/-- BFI in its two encodings. The fields are those of rules R62 and R63: `d = UInt(Rd)`, `n = UInt(Rn)`,
`lsbit = UInt(lsb)` (T1: `UInt(imm3:imm2)`), `msbit = UInt(msb)`. The field msb holds lsb + width - 1, not the width
(rule R65). T1 has no condition field (rule R29). -/
inductive Instr where
  | bfiA1 (cond : BitVec 4) (d n : RegNum) (lsbit msbit : BitPos)  -- row BFI_A1, rule R80
  | bfiT1 (d n : RegNum) (lsbit msbit : BitPos)                    -- row BFI_T1, rule R81
deriving DecidableEq, Repr

/-- The instruction set an encoding belongs to (rule R2). -/
def isetOf : Instr → ISet
  | .bfiA1 _ _ _ _ _ => .a32
  | .bfiT1 _ _ _ _ => .t32

end Sys2Proof
end

