-- ==== Sys2Proof/WellFormed.lean ====
section
/-! DEFINITION. Which terms of Instr are instructions: the constraints `!= 1111` of the two register diagrams. -/

namespace Sys2Proof

/-- The diagrams' constraints on variable fields: cond is not 1111 (rule R56) and Rn is not 1111 (rules R56, R59). A
word with d = 15 or msbit < lsbit still is a BFI, with UNPREDICTABLE behaviour (rules R66, R67, R72), so it is well
formed. -/
def wellFormed : Instr → Bool
  | .bfiA1 cond _ n _ _ => cond != 0b1111#4 && n != 15
  | .bfiT1 _ n _ _ => n != 15

end Sys2Proof
end

