-- ==== Sys2Proof/Decode.lean ====
section
/-! DEFINITION. From bytes to an instruction, total and rejecting by name (rules R42, R55 to R71); the encoder, written
from the same two diagrams; and the assembler's operand rules (rules R73 to R77). -/

namespace Sys2Proof

/-- Why a word is not BFI (rule R101, the decoder's refusals). -/
inductive DecodeRefusal where
  | notBfi    -- the fixed bits do not match (rule R71)
  | cond1111  -- A1 with cond 1111 (rule R58(b))
  | seeBfc    -- Rn is 1111: the word is BFC (rules R58(a), R61, R64)
deriving DecidableEq, Repr

/-- Why the decoder stops at a word that is BFI by its fixed bits (rule R68). -/
inductive DecodeFault where
  | sbzViolated  -- a should-be-zero bit of T1 is set
deriving DecidableEq, Repr

/-- What the decoder answers. -/
inductive Decoded where
  | instr (i : Instr)
  | refuse (r : DecodeRefusal)
  | fault (f : DecodeFault)
deriving DecidableEq, Repr

/-! ## Bytes and words (rule R42) -/

/-- The word the diagrams describe, from four bytes at rising addresses: one little-endian word in A32; two
little-endian halfwords, hw1 first and as bits 31:16, in T32 (rule R42; PRESUMED, log entry 10). -/
def wordOfBytes (iset : ISet) (b0 b1 b2 b3 : Byte) : Word :=
  match iset with
  | .a32 => b3 ++ b2 ++ b1 ++ b0
  | .t32 => (b1 ++ b0) ++ (b3 ++ b2)

/-- The four bytes of a word at rising addresses, the other way of rule R42. -/
def bytesOfWord (iset : ISet) (w : Word) : List Byte :=
  match iset with
  | .a32 => [w.extractLsb' 0 8, w.extractLsb' 8 8, w.extractLsb' 16 8, w.extractLsb' 24 8]
  | .t32 => [w.extractLsb' 16 8, w.extractLsb' 24 8, w.extractLsb' 0 8, w.extractLsb' 8 8]

/-! ## The decoder -/

/-- The tests that decide whether a word with the fixed bits is BFI at all, in the order of rules R69 and R104:
cond 1111 first (A1), then `SEE "BFC"`. -/
def encodingRefusal : Instr → Option DecodeRefusal
  | .bfiA1 cond _ n _ _ =>
    if cond = 0b1111#4 then some .cond1111 else if n = 15 then some .seeBfc else none
  | .bfiT1 _ n _ _ => if n = 15 then some .seeBfc else none

/-- A word is BFI A1 by its ten fixed bits, bits 27:21 and 6:4 (rule R57). -/
def fixedA1 (w : Word) : Bool := w &&& 0x0FE00070#32 == 0x07C00010#32

/-- A word is BFI T1 by its twelve fixed bits, bits 31:27, 25:20 and 15 (rule R60). -/
def fixedT1 (w : Word) : Bool := w &&& 0xFBF08000#32 == 0xF3600000#32

/-- Bits 26 and 5 of T1, drawn `(0)`, are both 0 (rule R68). -/
def sbzClear (w : Word) : Bool := !w.getLsbD 26 && !w.getLsbD 5

/-- `UInt` of a 4-bit register field (rule R62). -/
def regField (b : BitVec 4) : RegNum := ⟨b.toNat, b.isLt⟩

/-- `UInt` of a 5-bit position field (rule R62). -/
def posField (b : BitVec 5) : BitPos := ⟨b.toNat, b.isLt⟩

/-- The A1 operand fields (rules R56, R62). -/
def fieldsA1 (w : Word) : Instr :=
  .bfiA1 (w.extractLsb' 28 4) (regField (w.extractLsb' 12 4)) (regField (w.extractLsb' 0 4))
    (posField (w.extractLsb' 7 5)) (posField (w.extractLsb' 16 5))

/-- The T1 operand fields; lsbit is imm3:imm2 (rules R59, R63). -/
def fieldsT1 (w : Word) : Instr :=
  .bfiT1 (regField (w.extractLsb' 8 4)) (regField (w.extractLsb' 16 4))
    (posField (w.extractLsb' 12 3 ++ w.extractLsb' 6 2)) (posField (w.extractLsb' 0 5))

/-- The decoder of rule R69 for A32, up to the two UNPREDICTABLE tests on the operands, which the meaning makes before
anything else (log entry 4). -/
def decodeA32 (w : Word) : Decoded :=
  if fixedA1 w then
    match encodingRefusal (fieldsA1 w) with
    | some r => .refuse r
    | none => .instr (fieldsA1 w)
  else .refuse .notBfi

/-- The decoder of rule R69 for T32, likewise. -/
def decodeT32 (w : Word) : Decoded :=
  if fixedT1 w then
    match encodingRefusal (fieldsT1 w) with
    | some r => .refuse r
    | none => if sbzClear w then .instr (fieldsT1 w) else .fault .sbzViolated
  else .refuse .notBfi

/-- The decoder of rule R69: the instruction set decides the format (rule R28). Total on every word. -/
def decode (iset : ISet) (w : Word) : Decoded :=
  match iset with
  | .a32 => decodeA32 w
  | .t32 => decodeT32 w

/-- The decoder on four bytes at rising addresses (rules R42, R69). -/
def decodeBytes (iset : ISet) (b0 b1 b2 b3 : Byte) : Decoded :=
  decode iset (wordOfBytes iset b0 b1 b2 b3)

/-! ## The encoder (rules R56, R59) -/

/-- The word of an instruction, field by field from the two diagrams; T1's `(0)` bits are written 0 (rule R68). -/
def encode : Instr → Word
  | .bfiA1 cond d n lsbit msbit =>
    cond ++ 0b0111110#7 ++ BitVec.ofFin (w := 5) msbit ++ BitVec.ofFin (w := 4) d ++ BitVec.ofFin (w := 5) lsbit
      ++ 0b001#3 ++ BitVec.ofFin (w := 4) n
  | .bfiT1 d n lsbit msbit =>
    0b11110#5 ++ 0b0#1 ++ 0b11#2 ++ 0b01#2 ++ 0b1#1 ++ 0b0#1 ++ BitVec.ofFin (w := 4) n
      ++ 0b0#1 ++ (BitVec.ofFin (w := 5) lsbit).extractLsb' 2 3 ++ BitVec.ofFin (w := 4) d
      ++ (BitVec.ofFin (w := 5) lsbit).extractLsb' 0 2 ++ 0b0#1 ++ BitVec.ofFin (w := 5) msbit

/-! ## A word as spec/opcode_table.json numbers it -/

/-- The word whose low `nbits` bits are those of `w`, every bit above them 0. -/
def tableWord (nbits w : Nat) : Word := BitVec.ofNat 32 (w % 2 ^ nbits)

/-- The instruction set a table word belongs to: no word has both sets of fixed bits (they differ at bit 23), so the
twelve fixed bits of T1 decide, and every other word is read as A32 (log entry 22). -/
def tableISet (w : Word) : ISet := if fixedT1 w then .t32 else .a32

/-- The instruction the decoder reads from the bytes of the word that spec/opcode_table.json numbers `w`. Both rows are
numbered as one 32-bit value (T1: hw1 is bits 31:16). -/
def decodeTableWord (nbits w : Nat) : Option Instr :=
  let word := tableWord nbits w
  match bytesOfWord (tableISet word) word with
  | [b0, b1, b2, b3] =>
    match decodeBytes (tableISet word) b0 b1 b2 b3 with
    | .instr i => some i
    | _ => none
  | _ => none

/-! ## Assembler and disassembler (rules R65, R73 to R77) -/

/-- The optional width qualifier `<q>` (rule R75; PRESUMED, log entry 27). -/
inductive Qualifier where
  | omitted
  | narrow  -- .N
  | wide    -- .W
deriving DecidableEq, Repr

/-- One line `BFI<c><q> Rd, Rn, #lsb, #width` with its condition already read from the suffix (rule R73). -/
structure AsmLine where
  cond  : BitVec 4
  q     : Qualifier
  rd    : Nat
  rn    : Nat
  lsb   : Nat
  width : Nat
deriving DecidableEq, Repr

/-- The condition a suffix stands for; no suffix means AL (rules R75, R84; PRESUMED, log entry 27). -/
def condOfSuffix : String → Option (BitVec 4)
  | "EQ" => some 0b0000#4
  | "NE" => some 0b0001#4
  | "CS" => some 0b0010#4
  | "HS" => some 0b0010#4
  | "CC" => some 0b0011#4
  | "LO" => some 0b0011#4
  | "MI" => some 0b0100#4
  | "PL" => some 0b0101#4
  | "VS" => some 0b0110#4
  | "VC" => some 0b0111#4
  | "HI" => some 0b1000#4
  | "LS" => some 0b1001#4
  | "GE" => some 0b1010#4
  | "LT" => some 0b1011#4
  | "GT" => some 0b1100#4
  | "LE" => some 0b1101#4
  | "AL" => some 0b1110#4
  | "" => some 0b1110#4
  | _ => none

/-- The suffix a condition prints as, empty for 1110 (rules R77, R84; PRESUMED, log entry 27). DESIGN CHOICE, log entry 32:
0010 and 0011 print as CS and CC, where rule R84 gives HS and LO too, and 1111, which rule R84 gives no suffix, has none. -/
def suffixOfCond (cond : BitVec 4) : Option String :=
  ["EQ", "NE", "CS", "CC", "MI", "PL", "VS", "VC", "HI", "LS", "GE", "LT", "GT", "LE", ""][cond.toNat]?

/-- The operand ranges of rules R65, R74 and R76; `.N` is an error, since BFI has no 16-bit form (rule R75). -/
def asmInRange (a : AsmLine) : Bool :=
  a.rd < 15 && a.rn < 15 && a.lsb ≤ 31 && 1 ≤ a.width && a.width ≤ 32 - a.lsb && a.q != .narrow

/-- Assemble for A32: the condition goes into the word, msb = lsb + width - 1 (rule R76). -/
def assembleA1 (a : AsmLine) : Option Instr :=
  if asmInRange a && a.cond != 0b1111#4 then
    some (.bfiA1 a.cond (Fin.ofNat 16 a.rd) (Fin.ofNat 16 a.rn) (Fin.ofNat 32 a.lsb) (Fin.ofNat 32 (a.lsb + a.width - 1)))
  else none

/-- Assemble for T32 at a place whose IT block gives the condition `itCond` (1110 outside a block): the line's own
condition must be that one, since it is not encoded (rules R75, R76). DESIGN CHOICE, log entry 32: at a place whose IT state
gives 1111, for which rule R75 has no suffix, a line of condition 1111 assembles, though no text of rule R73 spells it. -/
def assembleT1 (itCond : BitVec 4) (a : AsmLine) : Option Instr :=
  if asmInRange a && a.cond == itCond then
    some (.bfiT1 (Fin.ofNat 16 a.rd) (Fin.ofNat 16 a.rn) (Fin.ofNat 32 a.lsb) (Fin.ofNat 32 (a.lsb + a.width - 1)))
  else none

/-- The line of decoded fields: width = msbit - lsbit + 1; none where msbit < lsbit, which has no spelling (rule R77).
DESIGN CHOICE, log entry 31: rule R77 speaks only of what rule R69 decodes, so not of d = 15; here d = 15 prints as R15,
though no assembler of rule R76 takes that line back. -/
def lineOfFields (cond : BitVec 4) (d n : RegNum) (lsbit msbit : BitPos) : Option AsmLine :=
  if msbit < lsbit then none
  else some { cond := cond, q := .omitted, rd := d.val, rn := n.val, lsb := lsbit.val, width := msbit.val - lsbit.val + 1 }

/-- Disassemble (rule R77); `itCond` is the condition the IT state gives a T32 instruction. -/
def disassemble (itCond : BitVec 4) : Instr → Option AsmLine
  | .bfiA1 cond d n lsbit msbit => lineOfFields cond d n lsbit msbit
  | .bfiT1 d n lsbit msbit => lineOfFields itCond d n lsbit msbit

/-- The text of a line, `BFI<c> R<d>, R<n>, #<lsb>, #<width>` (rules R73, R77), without a qualifier. DESIGN CHOICE, log entry
32: a line of condition 1111, which a T32 BFI whose IT state gives 1111 disassembles to (rules R69, R84), has no text. -/
def asmText (a : AsmLine) : Option String :=
  match suffixOfCond a.cond with
  | none => none
  | some c => some ("BFI" ++ c ++ " R" ++ toString a.rd ++ ", R" ++ toString a.rn ++ ", #" ++ toString a.lsb
      ++ ", #" ++ toString a.width)

end Sys2Proof
end

