-- ==== Sys2Proof/Config.lean ====
section
/-! DEFINITION. What the spec leaves open and no rule of it fixes: free values without a body, so that a claim holds whatever they are. -/

namespace Sys2Proof

/-- The three behaviours the source permits a BFI with msbit < lsbit (rule R67), in its order. -/
inductive CuBehaviour where
  | undef    -- Constraint_UNDEF: the instruction is UNDEFINED
  | nop      -- Constraint_NOP: only the pc and, in T32, the IT state advance
  | unknown  -- Constraint_UNKNOWN: x[d] ends with an UNKNOWN value
deriving DecidableEq, Repr, Inhabited

/-- CU_BFI_MSB_LT_LSB (rules R8, R67; U8): which behaviour the n-th such execution of a run shows. The source does not
say the choice is fixed for an implementation, so every execution draws anew. FREE VALUE, log entry 1. -/
opaque Config.cuBehaviour : Nat → CuBehaviour

/-- The UNKNOWN 32-bit value the n-th such execution leaves in x[d] (rule R67; U7): under no law. FREE VALUE, log
entry 2. -/
opaque Config.unknownWord : Nat → Word

/-- HAVE_DIT (rule R9): whether the hardware has the bit CPSR.DIT. FREE VALUE, log entry 9. -/
opaque Config.haveDit : Bool

end Sys2Proof
end

