-- ==== Sys2Proof/Machine/State.lean ====
section
/-! DEFINITION. The machine's state as plain data, the reasons a step can stop, and the state after reset. -/

namespace Sys2Proof.Machine

/-- The four condition flags (rule R26). BFI reads them and never writes them. -/
structure CondFlags where
  n : Bool
  z : Bool
  c : Bool
  v : Bool
deriving DecidableEq, Repr

/-- All the spec gives the machine: its state (rules R20 to R33) and the run parameters a launch fixes (rules R8,
R120), which no step writes. -/
structure State where
  /-- x[0] to x[14]; R15 is never read or written by BFI (rules R20, R21, R23). -/
  x : Vector Word 15
  /-- The byte address of the current instruction (rule R25). -/
  pc : Word
  /-- N, Z, C, V (rule R26). -/
  flags : CondFlags
  /-- CPSR.DIT, meaningful only when the hardware has it, Config.haveDit (rules R9, R27). -/
  dit : Bool
  /-- The T32 IT state; in A32 it is not read (rule R29). -/
  itstate : BitVec 8
  /-- ISET, a run parameter (rule R28). -/
  iset : ISet
  /-- Program memory, a run parameter: the listed addresses are its domain (rules R32, R41). -/
  prog : List Host.Cell
  /-- END_PC, a run parameter (rule R123). -/
  endPc : Word
  /-- THE MODEL'S OWN: how many CONSTRAINED UNPREDICTABLE draws the run has made; it indexes the free values
  Config.cuBehaviour and Config.unknownWord (log entry 2). -/
  draws : Nat
deriving DecidableEq, Repr

/-- Why a step has no next state. A fault carries no state: it changes nothing (rule R102). The spec's
unpredictable(msb_lt_lsb) is not among them, because the model admits the three permitted behaviours (rule R67). -/
inductive Fault where
  /-- d = 15, which the source calls UNPREDICTABLE with no constraint (rule R66). Raised by both meanings. Safe. -/
  | unpredictableRdIsPc
  /-- A should-be-zero bit of T1 is set (rule R68). Raised by step from the decoder. Safe. -/
  | unpredictableSbzViolated
  /-- msbit < lsbit and the behaviour drawn is Constraint_UNDEF: an Undefined Instruction exception, whose entry the
  spec does not describe (rules R67, R100, R105). Raised by both meanings. Safe. -/
  | undefinedInstruction
  /-- The next pc would leave the address space (rule R91). Raised by both meanings. Safe. -/
  | pcWrap
  /-- Stuck: a fetch address is outside program memory (rule R44). Raised by step. Safe. -/
  | stuck
  /-- Ended: the pc is END_PC, the run is over and the state is final (rule R123). Raised by step; the host's interface
  has no outcome of its own for it. Not a failure: a definition, which says nothing of the hardware. Safe. -/
  | ended
deriving DecidableEq, Repr

/-- What the model gives no meaning to (rules R6, R101). -/
inductive Refusal where
  /-- An instruction whose arm in exec has no meaning yet; no arm raises it. Safe. -/
  | notModelled (mnemonic : String)
  /-- The word has the fixed bits of neither encoding of its instruction set (rule R71). Raised by step. Safe. -/
  | notBfi
  /-- Rn is 1111: the word is BFC, which is in no source (rules R58, R61, R64). Raised by step, and by a meaning on a
  term that is no instruction. Safe. -/
  | seeBfc
  /-- An A1 word with cond 1111 (rule R58). Raised by step, and by a meaning on a term that is no instruction. Safe. -/
  | cond1111
  /-- The pc is misaligned: the launch is refused (rule R43). Raised by step. Safe. -/
  | pcMisaligned
  /-- T32 with an IT state for which CurrentCondT32() is UNPREDICTABLE: the launch is refused (rule R29). Raised by
  step and by the meaning of T1. Safe. -/
  | itstateRefused
deriving DecidableEq, Repr

/-- What exec and step answer. -/
abbrev Result := Host.Outcome State Fault Refusal

/-- The machine before anything is given to it. The spec gives no reset value for anything (rules R34, R120): every
value here is the model's, DESIGN CHOICE, log entries 6 and 7. END_PC equals the pc: the empty run, already ended. -/
def State.reset : State :=
  { x := Vector.replicate 15 0#32
    pc := 0#32
    flags := { n := false, z := false, c := false, v := false }
    dit := false
    itstate := 0#8
    iset := .a32
    prog := []
    endPc := 0#32
    draws := 0 }

end Sys2Proof.Machine
end

