-- ==== Sys2Proof/Machine/Flags.lean ====
section
/-! DEFINITION. The condition check and the T32 IT state (rules R29, R83). BFI writes no flag (rule R86), so there is no
flag computation beside them. -/

namespace Sys2Proof.Machine

/-- ConditionHolds(cond) of rule R83 (PRESUMED, the spec's general knowledge G1; log entry 11). -/
def conditionHolds (cond : BitVec 4) (f : CondFlags) : Bool :=
  let r := match (cond.extractLsb' 1 3).toNat with
    | 0 => f.z
    | 1 => f.c
    | 2 => f.n
    | 3 => f.v
    | 4 => f.c && !f.z
    | 5 => f.n == f.v
    | 6 => f.n == f.v && !f.z
    | _ => true
  if cond.getLsbD 0 && cond != 0b1111#4 then !r else r

/-- CurrentCondT32() of rule R29; none where it is UNPREDICTABLE (PRESUMED, G3; log entry 12). -/
def currentCondT32 (it : BitVec 8) : Option (BitVec 4) :=
  if it.extractLsb' 0 4 != 0b0000#4 then some (it.extractLsb' 4 4)
  else if it = 0b00000000#8 then some 0b1110#4
  else none

/-- ITAdvance() of rule R29, after every T32 instruction, passed or failed (PRESUMED, G3; log entry 12). -/
def itAdvance (it : BitVec 8) : BitVec 8 :=
  if it.extractLsb' 0 3 = 0b000#3 then 0b00000000#8
  else it.extractLsb' 5 3 ++ (it.extractLsb' 0 5 <<< 1)

end Sys2Proof.Machine
end

