-- ==== Sys2Proof/Machine/Operands.lean ====
section
/-! DEFINITION. The operand forms of BFI: a register number, and a bit field inserted into a register. -/

namespace Sys2Proof.Machine

/-- The register a number names, where BFI can use it: 0 to 14. Number 15 names no register of the model: as a source it
makes the word BFC, as a destination it is UNPREDICTABLE (rules R21, R64, R66). 13 and 14 are ordinary (rule R22). -/
def gpr? (k : RegNum) : Option (Fin 15) :=
  if h : k.val < 15 then some ⟨k.val, h⟩ else none

/-- The mask of rule R82, ones at bits msbit down to lsbit, computed on integers so that width 32 gives all ones
(rule R89). -/
def fieldMask (lsbit msbit : Nat) : Word :=
  BitVec.ofNat 32 ((2 ^ (msbit - lsbit + 1) - 1) * 2 ^ lsbit)

/-- The insert of rule R82 in its arithmetic form, for lsbit <= msbit <= 31. -/
def bfi32 (dst src : Word) (lsbit msbit : Nat) : Word :=
  (dst &&& ~~~(fieldMask lsbit msbit)) ||| ((src <<< lsbit) &&& fieldMask lsbit msbit)

end Sys2Proof.Machine
end

