-- ==== Sys2Proof/Machine/Ops.lean ====
section
/-! DEFINITION. The named operations over program memory, registers and run: the one place each is written. -/

namespace Sys2Proof.Machine

/-! ## Program memory (rules R32, R41) -/

/-- What program memory holds at an address; none outside its domain. There is no other value for an unlisted address:
a fetch from it is stuck (rule R44). -/
def progRead : List Host.Cell → Nat → Option Byte
  | [], _ => none
  | (a, b) :: rest, k => if a = k then some b else progRead rest k

/-- Put one byte at an address of the 32-bit space, keeping the addresses strictly rising. The machine never does so
(rule R41): it is how a launch gives program memory its contents. An address outside the space changes nothing. -/
def progWrite (m : List Host.Cell) (k : Nat) (v : Byte) : List Host.Cell :=
  if k < 2 ^ 32 then go m else m
where
  /-- The insertion into the rising list. -/
  go : List Host.Cell → List Host.Cell
    | [] => [(k, v)]
    | (a, b) :: rest =>
      if a < k then (a, b) :: go rest
      else if a = k then (k, v) :: rest
      else (k, v) :: (a, b) :: rest

/-- Put bytes at rising addresses. -/
def progWriteBytes (m : List Host.Cell) (k : Nat) : List Byte → List Host.Cell
  | [] => m
  | v :: rest => progWriteBytes (progWrite m k v) (k + 1) rest

/-- The one form of program memory: addresses strictly rising and inside the 32-bit space (rule R41). -/
def Memory.wf (m : List Host.Cell) : Bool :=
  decide (m.Pairwise (fun p q => p.1 < q.1)) && m.all (fun p => decide (p.1 < 2 ^ 32))

/-! ## Registers and the other fields a step writes -/

/-- Read x[k] (rule R20). -/
def readGpr (s : State) (k : Fin 15) : Word := s.x.get k

/-- Write x[k] (rule R20). -/
def writeGpr (s : State) (k : Fin 15) (v : Word) : State := { s with x := s.x.set k.val v k.isLt }

/-- Write the pc (rule R25). -/
def setPc (s : State) (v : Word) : State := { s with pc := v }

/-- Write the IT state (rule R29). -/
def setItstate (s : State) (v : BitVec 8) : State := { s with itstate := v }

/-- One more CONSTRAINED UNPREDICTABLE draw has been made (log entry 2). -/
def nextDraw (s : State) : State := { s with draws := s.draws + 1 }

/-- CPSR.DIT where the hardware has it (rules R9, R27). -/
def readDit (s : State) : Option Bool := if Config.haveDit then some s.dit else none

/-! ## Completing an instruction, and the exception the source names -/

/-- The end of rule R91's step: the pc moves on by 4, or the step faults where it would pass 2^32 - 1; the IT state
becomes `it`. -/
def retire (it : BitVec 8) (s : State) : Result :=
  if s.pc.toNat + 4 > 2 ^ 32 - 1 then .fault .pcWrap
  else .next (setPc (setItstate s it) (s.pc + 4#32))

/-- Raising the Undefined Instruction exception. The spec describes no entry: nothing is saved, no mode changes and no
vector is fetched; it is the terminal outcome of rules R101 and R105 (log entry 18). There is no return from it
(rule R106). -/
def raiseUndefined : Result := .fault .undefinedInstruction

/-! ## Launch (rules R43, R101, R121) -/

/-- pc_aligned: a multiple of 4 in A32, of 2 in T32 (rule R43; PRESUMED, G24; log entry 14). -/
def pcAligned (iset : ISet) (pc : Word) : Bool :=
  match iset with
  | .a32 => pc.toNat % 4 == 0
  | .t32 => pc.toNat % 2 == 0

/-- The IT state has a current condition; in A32 it is not read (rule R29). -/
def itstateAdmitted (iset : ISet) (it : BitVec 8) : Bool :=
  match iset with
  | .a32 => true
  | .t32 => (currentCondT32 it).isSome

/-- Why a launch state is refused before any step (rule R101). Both tests hold of every state a step leads to from an
admitted one, so making them at every step refuses launch states only (log entry 8). -/
def launchRefusal (s : State) : Option Refusal :=
  if pcAligned s.iset s.pc then
    if itstateAdmitted s.iset s.itstate then none else some .itstateRefused
  else some .pcMisaligned

/-! ## The decoder's answers as outcomes (rule R101) -/

/-- The refusal a decoder's refusal is. -/
def refusalOf : DecodeRefusal → Refusal
  | .notBfi => .notBfi
  | .cond1111 => .cond1111
  | .seeBfc => .seeBfc

/-- The fault a decoder's fault is. -/
def faultOf : DecodeFault → Fault
  | .sbzViolated => .unpredictableSbzViolated

end Sys2Proof.Machine
end

