-- ==== Sys2Proof/Machine/Bfi.lean ====
section
/-! DEFINITION. The meaning of BFI: one definition per encoding over the operation both share (rules R80 to R92). -/

namespace Sys2Proof.Machine

/-- BFI with msbit < lsbit: the behaviour is drawn among the three the source permits, whatever the condition, since the
test is made at decode (rules R67, R69, R90; conflict C2; log entries 1 to 3). `it` is the IT state afterwards. -/
def execMsbLtLsb (it : BitVec 8) (d : Fin 15) (s : State) : Result :=
  match Config.cuBehaviour s.draws with
  | .undef => raiseUndefined
  | .nop => retire it (nextDraw s)
  | .unknown => retire it (writeGpr (nextDraw s) d (Config.unknownWord s.draws))

/-- The operation both encodings share (rules R80, R81), under condition `cond`; `it` is the IT state afterwards. The
UNPREDICTABLE tests come first, in the order of rule R69 and whatever the condition (rule R90); both operands are read
before the destination is written (rule R82); a failed condition leaves only the pc and the IT state to move on
(rule R85). -/
def execBfi (cond : BitVec 4) (it : BitVec 8) (d n : RegNum) (lsbit msbit : BitPos) (s : State) : Result :=
  match gpr? n with
  | none => .refused .seeBfc
  | some n =>
    match gpr? d with
    | none => .fault .unpredictableRdIsPc
    | some d =>
      if msbit < lsbit then execMsbLtLsb it d s
      else if conditionHolds cond s.flags then
        retire it (writeGpr s d (bfi32 (readGpr s d) (readGpr s n) lsbit.val msbit.val))
      else retire it s

/-- BFI A1 (rule R80): the condition is the word's own; the IT state is not touched. -/
def execBfiA1 (cond : BitVec 4) (d n : RegNum) (lsbit msbit : BitPos) (s : State) : Result :=
  if cond = 0b1111#4 then .refused .cond1111
  else execBfi cond s.itstate d n lsbit msbit s

/-- BFI T1 (rule R81): the condition is the IT state's, which then advances. -/
def execBfiT1 (d n : RegNum) (lsbit msbit : BitPos) (s : State) : Result :=
  match currentCondT32 s.itstate with
  | none => .refused .itstateRefused
  | some cond => execBfi cond (itAdvance s.itstate) d n lsbit msbit s

end Sys2Proof.Machine
end

