-- ==== Sys2Proof/Machine/Dispatch.lean ====
section
/-! DEFINITION. One arm per constructor of Instr, each a direct call of its meaning. -/

namespace Sys2Proof.Machine

def exec (i : Instr) (s : State) : Host.Outcome State Fault Refusal :=
  match i with
  | .bfiA1 cond d n lsbit msbit => Sys2Proof.Machine.execBfiA1 cond d n lsbit msbit s
  | .bfiT1 d n lsbit msbit => Sys2Proof.Machine.execBfiT1 d n lsbit msbit s

end Sys2Proof.Machine
end

