-- ==== Sys2Proof/Machine/Fetch.lean ====
section
/-! DEFINITION. Fetching an instruction's bytes (rules R42, R44), and placing one where the next step fetches it. -/

namespace Sys2Proof.Machine

/-- The word at the pc: four bytes of program memory; none where one of them does not exist (rules R42, R44). -/
def fetch (s : State) : Option Word :=
  if s.pc.toNat + 3 > 2 ^ 32 - 1 then none
  else
    match progRead s.prog s.pc.toNat, progRead s.prog (s.pc.toNat + 1), progRead s.prog (s.pc.toNat + 2),
        progRead s.prog (s.pc.toNat + 3) with
    | some b0, some b1, some b2, some b3 => some (wordOfBytes s.iset b0 b1 b2 b3)
    | _, _, _, _ => none

/-- The pc where a launch can run an instruction of `iset`: the given one if it is aligned and its four bytes lie in the
address space, else 0. -/
def placePc (iset : ISet) (pc : Word) : Word :=
  if pcAligned iset pc && decide (pc.toNat + 3 < 2 ^ 32) then pc else 0#32

/-- The launch that runs `word` next: it selects the instruction set, puts the bytes at the pc, and changes the pc,
the IT state or END_PC only where they would keep the word from being run (log entry 22). -/
def placeWord (iset : ISet) (word : Word) (s : State) : State :=
  let pc := placePc iset s.pc
  { s with
    iset := iset
    pc := pc
    itstate := if itstateAdmitted iset s.itstate then s.itstate else 0#8
    endPc := if s.endPc = pc then pc + 4#32 else s.endPc
    prog := progWriteBytes s.prog pc.toNat (bytesOfWord iset word) }

end Sys2Proof.Machine
end

