-- ==== Sys2Proof/Machine/Step.lean ====
section
/-! DEFINITION. One step of the PE (rule R91), and the state whose next step runs a given word. -/

namespace Sys2Proof.Machine

/-- The outcome of a decoded word (rules R91, R101). -/
def runDecoded (r : Decoded) (s : State) : Result :=
  match r with
  | .instr i => exec i s
  | .refuse r => .refused (refusalOf r)
  | .fault f => .fault (faultOf f)

/-- One step (rule R91): refuse a launch state that is not admitted; end at END_PC; fetch, or be stuck; decode; run. -/
def step (s : State) : Host.Outcome State Fault Refusal :=
  match launchRefusal s with
  | some r => .refused r
  | none =>
    if s.pc = s.endPc then .fault .ended
    else
      match fetch s with
      | none => .fault .stuck
      | some w => runDecoded (decode s.iset w) s

/-- `s` with the instruction that spec/opcode_table.json numbers `w` placed so that the next step runs it. -/
def State.withFetchWord (s : State) (nbits w : Nat) : State :=
  placeWord (tableISet (tableWord nbits w)) (tableWord nbits w) s

end Sys2Proof.Machine
end

