-- ==== Sys2Proof/Safety.lean ====
section
/-! DEFINITION. The terms claims use: the invariant, the launch premises, the defined instructions, and what counts as a
run that went wrong. -/

namespace Sys2Proof.Machine

/-- The invariant every step keeps: program memory is in its one form (rule R41) and the state is one a launch admits,
with the pc aligned and, in T32, a current condition (rules R43, R29). -/
def Inv (s : State) : Prop := Memory.wf s.prog = true ∧ launchRefusal s = none

/-- prog_mapped (rule R121): END_PC lies a whole number of instructions ahead, and every byte up to it exists. -/
def progMapped (s : State) : Prop :=
  s.pc.toNat ≤ s.endPc.toNat ∧ (s.endPc.toNat - s.pc.toNat) % 4 = 0 ∧
    ∀ a, s.pc.toNat ≤ a → a < s.endPc.toNat → (progRead s.prog a).isSome = true

/-- it_clear (rule R121), the default launch premise. -/
def itClear (s : State) : Prop := s.itstate = 0b00000000#8

/-- The destination register number of an instruction. -/
def dstOf : Instr → RegNum
  | .bfiA1 _ d _ _ _ => d
  | .bfiT1 d _ _ _ => d

/-- The source register number of an instruction. -/
def srcOf : Instr → RegNum
  | .bfiA1 _ _ n _ _ => n
  | .bfiT1 _ n _ _ => n

/-- The lowest bit of an instruction's field. -/
def lsbitOf : Instr → BitPos
  | .bfiA1 _ _ _ l _ => l
  | .bfiT1 _ _ l _ => l

/-- The highest bit of an instruction's field. -/
def msbitOf : Instr → BitPos
  | .bfiA1 _ _ _ _ m => m
  | .bfiT1 _ _ _ m => m

/-- A BFI with fully defined behaviour: well formed, d not 15, msbit not below lsbit (rules R72, R87). -/
def definedInstr (i : Instr) : Bool := wellFormed i && dstOf i != 15 && decide (lsbitOf i ≤ msbitOf i)

/-- The word of program memory at `a`, as a fetch there would read it. -/
def wordAt (s : State) (a : Nat) : Option Word := fetch (setPc s (BitVec.ofNat 32 a))

/-- Every word from the pc to END_PC is a fully defined BFI of the run's instruction set. -/
def allDefined (s : State) : Prop :=
  ∀ k, s.pc.toNat + 4 * k < s.endPc.toNat →
    ∃ w i, wordAt s (s.pc.toNat + 4 * k) = some w ∧ decode s.iset w = .instr i ∧ definedInstr i = true

/-- A run that reaches this has gone wrong (rule R102): any fault but the run's end, any refusal. -/
def wentWrong : Result → Bool
  | .next _ => false
  | .fault .ended => false
  | .fault _ => true
  | .refused _ => true

/-- Apply a change of state to the next state, where there is one. -/
def mapNext (f : State → State) : Result → Result
  | .next s => .next (f s)
  | .fault r => .fault r
  | .refused r => .refused r

/-- Run one more instruction after an outcome, where it is a next state. -/
def andThen (r : Result) (i : Instr) : Result :=
  match r with
  | .next s => exec i s
  | .fault f => .fault f
  | .refused q => .refused q

end Sys2Proof.Machine
end

