-- ==== Sys2Proof/Certificates/Slice0/Obligations.lean ====
section
/-! DEFINITION. What the model is claimed to do, for the provers. Registers are named 0 to 14 as `Fin 15`; `castSucc` gives
the 4-bit number an instruction names them by, and 15 is the pc's number. A statement that cites no rule rests on a
passage the spec marks as a decision, as general knowledge or as derived; its docstring says which. -/

open Sys2Proof Sys2Proof.Machine

/-! ## The insert -/

/-- The arithmetic form and the bit form of the insert agree; the spec derives the second from the first (40_bfi.md
section 2). -/
def Obligations.InsertFormsAgree : Prop :=
  ∀ (dst src : Word) (l m : Nat), l ≤ m → m ≤ 31 → ∀ i < 32,
    (bfi32 dst src l m).getLsbD i = if l ≤ i ∧ i ≤ m then src.getLsbD (i - l) else dst.getLsbD i

/-- The nine laws the spec derives from the insert (40_bfi.md section 6), in its order; w = m - l + 1. -/
def Obligations.InsertLaws : Prop :=
  (∀ (a b : Word) (l m : Nat), l ≤ m → m ≤ 31 →
    ((bfi32 a b l m) >>> l).toNat % 2 ^ (m - l + 1) = b.toNat % 2 ^ (m - l + 1)) ∧
  (∀ (a b : Word) (l m i : Nat), l ≤ m → m ≤ 31 → i < l ∨ m < i → (bfi32 a b l m).getLsbD i = a.getLsbD i) ∧
  (∀ a b : Word, bfi32 a b 0 31 = b) ∧
  (∀ (a b c : Word) (l m : Nat), l ≤ m → m ≤ 31 →
    b.toNat % 2 ^ (m - l + 1) = c.toNat % 2 ^ (m - l + 1) → bfi32 a b l m = bfi32 a c l m) ∧
  (∀ (a b : Word) (l m : Nat), l ≤ m → m ≤ 31 → bfi32 (bfi32 a b l m) b l m = bfi32 a b l m) ∧
  (∀ (a b c : Word) (l m : Nat), l ≤ m → m ≤ 31 → bfi32 (bfi32 a b l m) c l m = bfi32 a c l m) ∧
  (∀ (a b c : Word) (l1 m1 l2 m2 : Nat), l1 ≤ m1 → m1 ≤ 31 → l2 ≤ m2 → m2 ≤ 31 → m1 < l2 ∨ m2 < l1 →
    bfi32 (bfi32 a b l1 m1) c l2 m2 = bfi32 (bfi32 a c l2 m2) b l1 m1) ∧
  (∀ (a : Word) (m : Nat), m ≤ 31 → bfi32 a a 0 m = a) ∧
  (∀ (a b : Word) (l m : Nat), l ≤ m → m ≤ 31 →
    ((bfi32 a b l m).toNat : Int) =
      (a.toNat : Int) - (((a >>> l).toNat % 2 ^ (m - l + 1) * 2 ^ l : Nat) : Int)
        + ((b.toNat % 2 ^ (m - l + 1) * 2 ^ l : Nat) : Int))

/-! ## What BFI does when it executes -/

/-- A1 (40_bfi.md sections 1 and 2): a defined BFI whose condition passes completes; x[d] becomes the insert of the two
values held before, which is also given bit by bit, and nothing else changes but the pc. Not the source's: that the
condition is A1's own field and when it passes (log entry 11, PRESUMED), and that the pc moves on by 4 below the top of the
address space (log entry 13, PRESUMED). -/
def Obligations.A1InsertsField : Prop :=
  ∀ (c : BitVec 4) (d n : Fin 15) (l m : BitPos) (s : State),
    c ≠ 0b1111#4 → l ≤ m → s.pc.toNat + 4 < 2 ^ 32 → conditionHolds c s.flags = true →
      let mask : Word := BitVec.ofNat 32 ((2 ^ (m.val - l.val + 1) - 1) * 2 ^ l.val)
      ∃ t, exec (.bfiA1 c d.castSucc n.castSucc l m) s = .next t ∧
        t = setPc (writeGpr s d ((readGpr s d &&& ~~~mask) ||| ((readGpr s n <<< l.val) &&& mask))) (s.pc + 4#32) ∧
        ∀ i < 32, (readGpr t d).getLsbD i =
          if l.val ≤ i ∧ i ≤ m.val then (readGpr s n).getLsbD (i - l.val) else (readGpr s d).getLsbD i

/-- T1, likewise (40_bfi.md sections 1 and 2, 10_state.md section 3). Not the source's: that the condition comes from the
IT state and that the IT state advances (log entry 12, PRESUMED), when a condition passes (log entry 11, PRESUMED), and the
pc (log entry 13, PRESUMED). -/
def Obligations.T1InsertsField : Prop :=
  ∀ (c : BitVec 4) (d n : Fin 15) (l m : BitPos) (s : State),
    currentCondT32 s.itstate = some c → l ≤ m → s.pc.toNat + 4 < 2 ^ 32 → conditionHolds c s.flags = true →
      let mask : Word := BitVec.ofNat 32 ((2 ^ (m.val - l.val + 1) - 1) * 2 ^ l.val)
      ∃ t, exec (.bfiT1 d.castSucc n.castSucc l m) s = .next t ∧
        t = setPc (setItstate
              (writeGpr s d ((readGpr s d &&& ~~~mask) ||| ((readGpr s n <<< l.val) &&& mask)))
              (itAdvance s.itstate)) (s.pc + 4#32) ∧
        ∀ i < 32, (readGpr t d).getLsbD i =
          if l.val ≤ i ∧ i ≤ m.val then (readGpr s n).getLsbD (i - l.val) else (readGpr s d).getLsbD i

/-- A defined BFI whose condition fails completes, and nothing changes but the pc and, in T32, the IT state (40_bfi.md
sections 3 and 5). Not the source's: when a condition fails (log entry 11, PRESUMED), T1's condition and the advance of the
IT state (10_state.md section 3; log entry 12, PRESUMED), and the pc (log entry 13, PRESUMED). -/
def Obligations.FailedConditionOnlyMovesOn : Prop :=
  (∀ (c : BitVec 4) (d n : Fin 15) (l m : BitPos) (s : State),
    c ≠ 0b1111#4 → l ≤ m → s.pc.toNat + 4 < 2 ^ 32 → conditionHolds c s.flags = false →
      exec (.bfiA1 c d.castSucc n.castSucc l m) s = .next (setPc s (s.pc + 4#32))) ∧
  (∀ (c : BitVec 4) (d n : Fin 15) (l m : BitPos) (s : State),
    currentCondT32 s.itstate = some c → l ≤ m → s.pc.toNat + 4 < 2 ^ 32 → conditionHolds c s.flags = false →
      exec (.bfiT1 d.castSucc n.castSucc l m) s =
        .next (setPc (setItstate s (itAdvance s.itstate)) (s.pc + 4#32)))

/-- Rule R86: after any BFI, passed or failed, the four flags and DIT hold what they held before. -/
def Obligations.FlagsNeverWritten : Prop :=
  ∀ (i : Instr) (s t : State), exec i s = .next t → t.flags = s.flags ∧ t.dit = s.dit ∧ readDit t = readDit s

/-- A defined BFI raises no exception, and an Undefined Instruction exception comes only from msbit < lsbit (40_bfi.md
section 3). Not the source's: that it may instead fault pc_wrap, exactly at the top of the address space (40_bfi.md section
5; log entry 13), in T32 the premise that the IT state has a condition (10_state.md section 3; log entry 12, PRESUMED), and
that of the three behaviours of msbit < lsbit UNDEF alone raises it (30_encoding.md section 5; log entry 25, PRESUMED). -/
def Obligations.NoSynchronousException : Prop :=
  (∀ (i : Instr) (s : State), definedInstr i = true → (isetOf i = .t32 → (currentCondT32 s.itstate).isSome = true) →
    (∃ t, exec i s = .next t) ∨ (exec i s = .fault .pcWrap ∧ 2 ^ 32 ≤ s.pc.toNat + 4)) ∧
  (∀ (i : Instr) (s : State), exec i s = .fault .undefinedInstruction → msbitOf i < lsbitOf i)

/-- No instruction reads or writes memory: with other program contents it does the same and leaves them as they are
(20_memory.md section 1). Where msbit < lsbit the two executions compared stand at one draw, and that they then show the
same behaviour and the same UNKNOWN word is the model's form of the free values, not the spec's (log entries 1 and 2,
DESIGN CHOICE: hardware may differ between two executions); that NOP and UNKNOWN touch no memory is 30_encoding.md section 5
and log entry 25, PRESUMED. -/
def Obligations.NoDataMemory : Prop :=
  ∀ (i : Instr) (s : State) (p : List Host.Cell),
    exec i { s with prog := p } = mapNext (fun t => { t with prog := p }) (exec i s)

/-- With msbit < lsbit, whatever the condition, the behaviour is the free choice Config.cuBehaviour at this draw: the
fault undefinedInstruction, or completing as a NOP, or completing with the free value Config.unknownWord in x[d]. The
three come from the source; their meanings are general knowledge (log entry 25), the draw is the model's (log entries 1
and 2), the time of the test the spec's decision (log entry 3), the IT state and its advance log entry 12, and the pc log
entry 13 (both PRESUMED). -/
def Obligations.MsbBelowLsbDrawsOneOfThree : Prop :=
  (∀ (c : BitVec 4) (d n : Fin 15) (l m : BitPos) (s : State),
    c ≠ 0b1111#4 → m < l → s.pc.toNat + 4 < 2 ^ 32 →
      exec (.bfiA1 c d.castSucc n.castSucc l m) s =
        match Config.cuBehaviour s.draws with
        | .undef => .fault .undefinedInstruction
        | .nop => .next (setPc (nextDraw s) (s.pc + 4#32))
        | .unknown => .next (setPc (writeGpr (nextDraw s) d (Config.unknownWord s.draws)) (s.pc + 4#32))) ∧
  (∀ (d n : Fin 15) (l m : BitPos) (s : State),
    (currentCondT32 s.itstate).isSome = true → m < l → s.pc.toNat + 4 < 2 ^ 32 →
      exec (.bfiT1 d.castSucc n.castSucc l m) s =
        match Config.cuBehaviour s.draws with
        | .undef => .fault .undefinedInstruction
        | .nop => .next (setPc (setItstate (nextDraw s) (itAdvance s.itstate)) (s.pc + 4#32))
        | .unknown => .next (setPc (setItstate (writeGpr (nextDraw s) d (Config.unknownWord s.draws))
            (itAdvance s.itstate)) (s.pc + 4#32)))

/-- A destination R15 is the fault unpredictable(rd_is_pc) in both encodings, whatever the condition and the field: the
source calls it UNPREDICTABLE, the fault and its time are the spec's decisions (log entries 3 and 4), T1's premise on the
IT state is log entry 12. -/
def Obligations.DestinationPcFaults : Prop :=
  (∀ (c : BitVec 4) (n : Fin 15) (l m : BitPos) (s : State), c ≠ 0b1111#4 →
    exec (.bfiA1 c 15 n.castSucc l m) s = .fault .unpredictableRdIsPc) ∧
  (∀ (n : Fin 15) (l m : BitPos) (s : State), (currentCondT32 s.itstate).isSome = true →
    exec (.bfiT1 15 n.castSucc l m) s = .fault .unpredictableRdIsPc)

/-- At the top of the address space no BFI moves on: a defined one faults pc_wrap, passed or failed, and one with
msbit < lsbit is the fault undefinedInstruction where UNDEF is drawn and pc_wrap where NOP or UNKNOWN is (40_bfi.md section
5, the spec's decision, log entry 13; the draw is log entry 1, the time of the test log entry 3, T1's premise on the IT
state log entry 12, the meaning of the three behaviours log entry 25, PRESUMED). -/
def Obligations.PcWrapFaults : Prop :=
  (∀ (c : BitVec 4) (d n : Fin 15) (l m : BitPos) (s : State), c ≠ 0b1111#4 → 2 ^ 32 ≤ s.pc.toNat + 4 →
    exec (.bfiA1 c d.castSucc n.castSucc l m) s =
      if l ≤ m then .fault .pcWrap
      else match Config.cuBehaviour s.draws with
        | .undef => .fault .undefinedInstruction
        | .nop => .fault .pcWrap
        | .unknown => .fault .pcWrap) ∧
  (∀ (d n : Fin 15) (l m : BitPos) (s : State), (currentCondT32 s.itstate).isSome = true → 2 ^ 32 ≤ s.pc.toNat + 4 →
    exec (.bfiT1 d.castSucc n.castSucc l m) s =
      if l ≤ m then .fault .pcWrap
      else match Config.cuBehaviour s.draws with
        | .undef => .fault .undefinedInstruction
        | .nop => .fault .pcWrap
        | .unknown => .fault .pcWrap)

/-- A term that is no instruction, or a T1 under an IT state without a condition, is refused by its own name (the
model's, log entries 12 and 21). -/
def Obligations.TermsThatAreNoBfiAreRefused : Prop :=
  (∀ (d n : RegNum) (l m : BitPos) (s : State), exec (.bfiA1 0b1111#4 d n l m) s = .refused .cond1111) ∧
  (∀ (c : BitVec 4) (d : RegNum) (l m : BitPos) (s : State), c ≠ 0b1111#4 →
    exec (.bfiA1 c d 15 l m) s = .refused .seeBfc) ∧
  (∀ (d : RegNum) (l m : BitPos) (s : State), (currentCondT32 s.itstate).isSome = true →
    exec (.bfiT1 d 15 l m) s = .refused .seeBfc) ∧
  (∀ (d n : RegNum) (l m : BitPos) (s : State), currentCondT32 s.itstate = none →
    exec (.bfiT1 d n l m) s = .refused .itstateRefused)

/-! ## Frames -/

/-- The frame of A1: whenever it answers a next state, every register but x[d], the flags, DIT, the IT state, the run
parameters and every byte of program memory are as before; the pc may change. For a BFI that is not UNPREDICTABLE this is
10_state.md section 1, derived there; where msbit < lsbit and NOP or UNKNOWN is drawn it is the meaning 30_encoding.md
section 5 gives those two, general knowledge the spec supplies (log entry 25, PRESUMED). -/
def Obligations.A1Frame : Prop :=
  ∀ (c : BitVec 4) (d n : RegNum) (l m : BitPos) (s t : State), exec (.bfiA1 c d n l m) s = .next t →
    (∀ k : Fin 15, k.val ≠ d.val → readGpr t k = readGpr s k) ∧
    t.flags = s.flags ∧ t.dit = s.dit ∧ t.itstate = s.itstate ∧ t.iset = s.iset ∧ t.endPc = s.endPc ∧
    (∀ a, progRead t.prog a = progRead s.prog a)

/-- The frame of T1, likewise, but for the IT state. For a BFI that is not UNPREDICTABLE the frame, and that the IT state is
written, is 10_state.md section 1, derived there; that the IT state becomes its advance is general knowledge the spec
supplies (10_state.md section 3; log entry 12, PRESUMED). Where msbit < lsbit and NOP or UNKNOWN is drawn, the frame and the
advance are the meaning 30_encoding.md section 5 gives those two (log entry 25, PRESUMED). -/
def Obligations.T1Frame : Prop :=
  ∀ (d n : RegNum) (l m : BitPos) (s t : State), exec (.bfiT1 d n l m) s = .next t →
    (∀ k : Fin 15, k.val ≠ d.val → readGpr t k = readGpr s k) ∧
    t.flags = s.flags ∧ t.dit = s.dit ∧ t.itstate = itAdvance s.itstate ∧ t.iset = s.iset ∧ t.endPc = s.endPc ∧
    (∀ a, progRead t.prog a = progRead s.prog a)

/-- A register the instruction does not name is neither read nor written: with another value there, it does the same
(10_state.md section 1, derived there for a BFI that is not UNPREDICTABLE). Where msbit < lsbit (30_encoding.md section 5)
the two executions compared stand at one draw, and that they then show the same behaviour and the same UNKNOWN word is the
model's form of the free values, not the spec's (log entries 1 and 2, DESIGN CHOICE: hardware may differ between two
executions); what NOP and UNKNOWN read and write is log entry 25, PRESUMED. -/
def Obligations.UnnamedRegisterNeitherReadNorWritten : Prop :=
  ∀ (i : Instr) (s : State) (k : Fin 15) (v : Word), k.castSucc ≠ dstOf i → k.castSucc ≠ srcOf i →
    exec i (writeGpr s k v) = mapNext (fun t => writeGpr t k v) (exec i s)

/-- Bits of the source above the width are not read: with other bits there, a defined BFI with d not n does the same
(40_bfi.md section 6 law 4, for the instruction). -/
def Obligations.SourceBitsAboveWidthNotRead : Prop :=
  ∀ (i : Instr) (s : State) (n : Fin 15) (v : Word), srcOf i = n.castSucc → dstOf i ≠ srcOf i →
    lsbitOf i ≤ msbitOf i →
    v.toNat % 2 ^ ((msbitOf i).val - (lsbitOf i).val + 1) =
      (readGpr s n).toNat % 2 ^ ((msbitOf i).val - (lsbitOf i).val + 1) →
    exec i (writeGpr s n v) = mapNext (fun t => writeGpr t n v) (exec i s)

/-! ## Sequences -/

/-- The result of a BFI is visible to the very next instruction (70_reset_and_hazards.md section 4; log entry 30,
PRESUMED): after any two BFIs that follow each other and pass, each reads its source and its destination as the ones before
left them, so where the second's source or destination is the first's destination it is the inserted value `new`. For A1
under any two conditions that pass, and for T1 under those of any IT state (log entries 11 and 12, PRESUMED). That the pc
is 8 more is log entry 13, PRESUMED. -/
def Obligations.ResultVisibleToNextInstruction : Prop :=
  (∀ (c1 c2 : BitVec 4) (d n e k : Fin 15) (l1 m1 l2 m2 : BitPos) (s : State),
    c1 ≠ 0b1111#4 → c2 ≠ 0b1111#4 → conditionHolds c1 s.flags = true → conditionHolds c2 s.flags = true →
    l1 ≤ m1 → l2 ≤ m2 → s.pc.toNat + 8 < 2 ^ 32 →
      let new (j : Fin 15) : Word :=
        if j = d then bfi32 (readGpr s d) (readGpr s n) l1.val m1.val else readGpr s j
      ∃ t, andThen (exec (.bfiA1 c1 d.castSucc n.castSucc l1 m1) s) (.bfiA1 c2 e.castSucc k.castSucc l2 m2) = .next t ∧
        readGpr t e = bfi32 (new e) (new k) l2.val m2.val ∧ (∀ j, j ≠ e → readGpr t j = new j) ∧
        t.pc = s.pc + 8#32) ∧
  (∀ (c1 c2 : BitVec 4) (d n e k : Fin 15) (l1 m1 l2 m2 : BitPos) (s : State),
    currentCondT32 s.itstate = some c1 → currentCondT32 (itAdvance s.itstate) = some c2 →
    conditionHolds c1 s.flags = true → conditionHolds c2 s.flags = true →
    l1 ≤ m1 → l2 ≤ m2 → s.pc.toNat + 8 < 2 ^ 32 →
      let new (j : Fin 15) : Word :=
        if j = d then bfi32 (readGpr s d) (readGpr s n) l1.val m1.val else readGpr s j
      ∃ t, andThen (exec (.bfiT1 d.castSucc n.castSucc l1 m1) s) (.bfiT1 e.castSucc k.castSucc l2 m2) = .next t ∧
        readGpr t e = bfi32 (new e) (new k) l2.val m2.val ∧ (∀ j, j ≠ e → readGpr t j = new j) ∧
        t.pc = s.pc + 8#32)

/-- Two BFIs into disjoint fields of one register, from other registers, may be exchanged, under any conditions (A1) and
outside an IT block (T1): 40_bfi.md section 6 law 7, for instructions. When they pass is log entry 11, that a clear IT
state means always log entry 12, the pc log entry 13 (all PRESUMED). -/
def Obligations.DisjointFieldsCommute : Prop :=
  (∀ (c1 c2 : BitVec 4) (d n1 n2 : Fin 15) (l1 m1 l2 m2 : BitPos) (s : State),
    c1 ≠ 0b1111#4 → c2 ≠ 0b1111#4 → n1 ≠ d → n2 ≠ d → l1 ≤ m1 → l2 ≤ m2 → m1 < l2 ∨ m2 < l1 →
      andThen (exec (.bfiA1 c1 d.castSucc n1.castSucc l1 m1) s) (.bfiA1 c2 d.castSucc n2.castSucc l2 m2) =
        andThen (exec (.bfiA1 c2 d.castSucc n2.castSucc l2 m2) s) (.bfiA1 c1 d.castSucc n1.castSucc l1 m1)) ∧
  (∀ (d n1 n2 : Fin 15) (l1 m1 l2 m2 : BitPos) (s : State),
    itClear s → n1 ≠ d → n2 ≠ d → l1 ≤ m1 → l2 ≤ m2 → m1 < l2 ∨ m2 < l1 →
      andThen (exec (.bfiT1 d.castSucc n1.castSucc l1 m1) s) (.bfiT1 d.castSucc n2.castSucc l2 m2) =
        andThen (exec (.bfiT1 d.castSucc n2.castSucc l2 m2) s) (.bfiT1 d.castSucc n1.castSucc l1 m1))

/-! ## The condition and the IT state -/

/-- The condition table (40_bfi.md section 3), one row per value of cond; all of it general knowledge the spec supplies
(log entry 11). -/
def Obligations.ConditionTable : Prop :=
  ∀ n z c v : Bool,
    let holds (cond : BitVec 4) := conditionHolds cond { n := n, z := z, c := c, v := v }
    holds 0b0000#4 = z ∧ holds 0b0001#4 = !z ∧ holds 0b0010#4 = c ∧ holds 0b0011#4 = !c ∧
    holds 0b0100#4 = n ∧ holds 0b0101#4 = !n ∧ holds 0b0110#4 = v ∧ holds 0b0111#4 = !v ∧
    holds 0b1000#4 = (c && !z) ∧ holds 0b1001#4 = (!c || z) ∧
    holds 0b1010#4 = (n == v) ∧ holds 0b1011#4 = (n != v) ∧
    holds 0b1100#4 = (!z && n == v) ∧ holds 0b1101#4 = (z || n != v) ∧
    holds 0b1110#4 = true ∧ holds 0b1111#4 = true

/-- The IT state (10_state.md section 3), on its bits: the current condition is its upper four bits while any of the lower
four is set, 1110 when it is clear, and unpredictable otherwise; it advances by clearing when the lower three bits are 0,
else by shifting the lower five. All of it general knowledge the spec supplies (log entry 12). -/
def Obligations.ItStateAdvances : Prop :=
  ∀ it : BitVec 8,
    currentCondT32 it =
      (if it.toNat % 16 ≠ 0 then some (BitVec.ofNat 4 (it.toNat / 16))
       else if it.toNat = 0 then some 0b1110#4 else none) ∧
    (itAdvance it).toNat =
      (if it.toNat % 8 = 0 then 0 else it.toNat / 32 * 32 + it.toNat * 2 % 32)

/-! ## Encoding -/

/-- Rules R56 and R62: a word decodes to a BFI A1 with given operands exactly when every field of the diagram is as the
diagram shows it and the operands are the unsigned values of the fields. -/
def Obligations.A1Format : Prop :=
  ∀ (w : Word) (c : BitVec 4) (d n : RegNum) (l m : BitPos),
    decode .a32 w = .instr (.bfiA1 c d n l m) ↔
      w.extractLsb' 28 4 = c ∧ c ≠ 0b1111#4 ∧ w.extractLsb' 21 7 = 0b0111110#7 ∧
      (w.extractLsb' 16 5).toNat = m.val ∧ (w.extractLsb' 12 4).toNat = d.val ∧ (w.extractLsb' 7 5).toNat = l.val ∧
      w.extractLsb' 4 3 = 0b001#3 ∧ (w.extractLsb' 0 4).toNat = n.val ∧ n.val ≠ 15

/-- The same for T1, whose lsbit is 4 * imm3 + imm2 (30_encoding.md sections 3 and 4). That a word with one of the two (0)
bits set does not decode is the spec's decision (30_encoding.md section 5; log entry 19, DESIGN CHOICE). -/
def Obligations.T1Format : Prop :=
  ∀ (w : Word) (d n : RegNum) (l m : BitPos),
    decode .t32 w = .instr (.bfiT1 d n l m) ↔
      w.extractLsb' 27 5 = 0b11110#5 ∧ w.extractLsb' 26 1 = 0b0#1 ∧ w.extractLsb' 24 2 = 0b11#2 ∧
      w.extractLsb' 22 2 = 0b01#2 ∧ w.extractLsb' 21 1 = 0b1#1 ∧ w.extractLsb' 20 1 = 0b0#1 ∧
      (w.extractLsb' 16 4).toNat = n.val ∧ n.val ≠ 15 ∧ w.extractLsb' 15 1 = 0b0#1 ∧
      4 * (w.extractLsb' 12 3).toNat + (w.extractLsb' 6 2).toNat = l.val ∧ (w.extractLsb' 8 4).toNat = d.val ∧
      w.extractLsb' 5 1 = 0b0#1 ∧ (w.extractLsb' 0 5).toNat = m.val

/-- A word with Rn = 1111 is never BFI, whatever its other fields, in either encoding (30_encoding.md section 4). That it
is refused by the name see_bfc where the fixed bits (and in A32 the condition) are BFI's is the spec's decision
(30_encoding.md sections 2 and 3; log entry 20, DESIGN CHOICE). -/
def Obligations.SeeBfcWhateverOtherFields : Prop :=
  (∀ w : Word, w.extractLsb' 0 4 = 0b1111#4 →
    (∀ i, decode .a32 w ≠ .instr i) ∧
    (w &&& 0x0FE00070#32 = 0x07C00010#32 → w.extractLsb' 28 4 ≠ 0b1111#4 → decode .a32 w = .refuse .seeBfc)) ∧
  (∀ w : Word, w.extractLsb' 16 4 = 0b1111#4 →
    (∀ i, decode .t32 w ≠ .instr i) ∧
    (w &&& 0xFBF08000#32 = 0xF3600000#32 → decode .t32 w = .refuse .seeBfc))

/-- Which words the decoder does not take as BFI, and by which name, over the masks (30_encoding.md sections 2, 3 and 5:
derived there, the names and the should-be-zero fault are the spec's decisions, log entries 19 and 20). -/
def Obligations.EveryOtherWordStopsByName : Prop :=
  (∀ w : Word,
    (decode .a32 w = .refuse .notBfi ↔ w &&& 0x0FE00070#32 ≠ 0x07C00010#32) ∧
    (decode .a32 w = .refuse .cond1111 ↔ w &&& 0x0FE00070#32 = 0x07C00010#32 ∧ w.extractLsb' 28 4 = 0b1111#4) ∧
    (decode .a32 w = .refuse .seeBfc ↔ w &&& 0x0FE00070#32 = 0x07C00010#32 ∧ w.extractLsb' 28 4 ≠ 0b1111#4 ∧
      w.extractLsb' 0 4 = 0b1111#4) ∧
    decode .a32 w ≠ .fault .sbzViolated) ∧
  (∀ w : Word,
    (decode .t32 w = .refuse .notBfi ↔ w &&& 0xFBF08000#32 ≠ 0xF3600000#32) ∧
    (decode .t32 w = .refuse .seeBfc ↔ w &&& 0xFBF08000#32 = 0xF3600000#32 ∧ w.extractLsb' 16 4 = 0b1111#4) ∧
    (decode .t32 w = .fault .sbzViolated ↔ w &&& 0xFBF08000#32 = 0xF3600000#32 ∧
      w.extractLsb' 16 4 ≠ 0b1111#4 ∧ w &&& 0xFFF08020#32 ≠ 0xF3600000#32) ∧
    decode .t32 w ≠ .refuse .cond1111)

/-- No word is BFI in both instruction sets, so a wrong ISET never reads one BFI as another (read from the two diagrams,
which differ at bit 23; DEDUCED, log entry 22). -/
def Obligations.NoWordIsBfiInBoth : Prop :=
  ∀ (w : Word) (i j : Instr), ¬ (decode .a32 w = .instr i ∧ decode .t32 w = .instr j)

/-- Decoding the encoded word of every well-formed instruction gives the instruction back, as a word and as the four bytes
at rising addresses (the byte order is log entry 10; that a word with d = 15 or msbit < lsbit decodes to an instruction is
log entry 4). -/
def Obligations.DecodeOfEncode : Prop :=
  ∀ i : Instr, wellFormed i = true →
    decode (isetOf i) (encode i) = .instr i ∧
    ∃ b0 b1 b2 b3, bytesOfWord (isetOf i) (encode i) = [b0, b1, b2, b3] ∧
      decodeBytes (isetOf i) b0 b1 b2 b3 = .instr i

/-- A word that decodes to an instruction is that instruction's encoding, which is well formed and of the instruction set
it was decoded in: no second word stands for it (that a T1 word with a soft bit set does not decode is log entry 19). -/
def Obligations.EncodeOfDecode : Prop :=
  ∀ (iset : ISet) (w : Word) (i : Instr), decode iset w = .instr i →
    wellFormed i = true ∧ isetOf i = iset ∧ encode i = w

/-- The msb field (30_encoding.md section 4): the assembler writes msb = lsb + width - 1 and never msb < lsb, and the
disassembler gives width = msbit - lsbit + 1. And which lines assemble (30_encoding.md section 6): exactly those with every
operand in its range and a qualifier that is not .N, in A32 under every condition but 1111, in T32 under the condition of
the place (the conditions and the qualifiers are log entry 27, PRESUMED; that a line of condition 1111 assembles at a T32
place of condition 1111 is the model's choice, log entry 32). -/
def Obligations.MsbFieldHoldsLsbPlusWidthMinusOne : Prop :=
  (∀ (a : AsmLine) (i : Instr), assembleA1 a = some i ∨ (∃ it, assembleT1 it a = some i) →
    (lsbitOf i).val = a.lsb ∧ (msbitOf i).val = a.lsb + a.width - 1 ∧ lsbitOf i ≤ msbitOf i) ∧
  (∀ (c : BitVec 4) (i : Instr) (a : AsmLine), disassemble c i = some a →
    a.width = (msbitOf i).val - (lsbitOf i).val + 1 ∧ a.lsb = (lsbitOf i).val) ∧
  (∀ (a : AsmLine) (it : BitVec 4),
    let inRange := a.rd < 15 ∧ a.rn < 15 ∧ a.lsb ≤ 31 ∧ 1 ≤ a.width ∧ a.width ≤ 32 - a.lsb ∧ a.q ≠ .narrow
    ((∃ i, assembleA1 a = some i) ↔ inRange ∧ a.cond ≠ 0b1111#4) ∧
    ((∃ i, assembleT1 it a = some i) ↔ inRange ∧ a.cond = it))

/-- Rule R65, on the words themselves: in the word of an assembled line the field msb (bits 20:16 of A1, 4:0 of T1) holds
lsb + width - 1, not the width, and lies in lsb..31; and the line of a word that decodes has the width msb - lsb + 1. (Which
lines assemble or come back is another statement's matter: log entries 27, 31 and 32. This one says only what the field holds
where a line does.) -/
def Obligations.EncodedMsbFieldIsNotTheWidth : Prop :=
  (∀ (a : AsmLine) (i : Instr), assembleA1 a = some i →
    let msb := ((encode i).extractLsb' 16 5).toNat
    msb = a.lsb + a.width - 1 ∧ a.lsb ≤ msb ∧ msb ≤ 31) ∧
  (∀ (it : BitVec 4) (a : AsmLine) (i : Instr), assembleT1 it a = some i →
    let msb := ((encode i).extractLsb' 0 5).toNat
    msb = a.lsb + a.width - 1 ∧ a.lsb ≤ msb ∧ msb ≤ 31) ∧
  (∀ (w : Word) (i : Instr) (c : BitVec 4) (a : AsmLine), decode .a32 w = .instr i → disassemble c i = some a →
    a.width = (w.extractLsb' 16 5).toNat - a.lsb + 1) ∧
  (∀ (w : Word) (i : Instr) (c : BitVec 4) (a : AsmLine), decode .t32 w = .instr i → disassemble c i = some a →
    a.width = (w.extractLsb' 0 5).toNat - a.lsb + 1)

/-- Rule R63, by division and remainder: the operands of every word that decodes to a BFI T1, lsbit being
4 * imm3 + imm2. -/
def Obligations.T1OperandsAreUnsignedFields : Prop :=
  ∀ (w : Word) (d n : RegNum) (l m : BitPos), decode .t32 w = .instr (.bfiT1 d n l m) →
    d.val = w.toNat / 2 ^ 8 % 16 ∧ n.val = w.toNat / 2 ^ 16 % 16 ∧ m.val = w.toNat % 32 ∧
    l.val = 4 * (w.toNat / 2 ^ 12 % 8) + w.toNat / 2 ^ 6 % 4 ∧ d.val ≤ 15 ∧ n.val ≤ 14 ∧ l.val ≤ 31 ∧ m.val ≤ 31

/-- What the assembler emits, as the spec writes it with shifts (30_encoding.md section 6, derived there): the A1 word, and
the two halfwords of T1. Which lines assemble is log entries 27 and 32. -/
def Obligations.AssemblerEmits : Prop :=
  (∀ (a : AsmLine) (i : Instr), assembleA1 a = some i →
    (encode i).toNat = a.cond.toNat * 2 ^ 28 + 0x07C00010 + (a.lsb + a.width - 1) * 2 ^ 16 + a.rd * 2 ^ 12
      + a.lsb * 2 ^ 7 + a.rn) ∧
  (∀ (it : BitVec 4) (a : AsmLine) (i : Instr), assembleT1 it a = some i →
    (encode i).toNat / 2 ^ 16 = 0xF360 + a.rn ∧
    (encode i).toNat % 2 ^ 16 = a.lsb / 4 * 2 ^ 12 + a.rd * 2 ^ 8 + a.lsb % 4 * 2 ^ 6 + (a.lsb + a.width - 1))

/-- A line assembled and disassembled is the line (30_encoding.md section 6, derived there), with no qualifier. Which lines
assemble, and what a line of condition 1111 is at a T32 place of that condition, is log entries 27 and 32. -/
def Obligations.DisassembleOfAssemble : Prop :=
  (∀ (a : AsmLine) (i : Instr) (it : BitVec 4), assembleA1 a = some i →
    disassemble it i = some { a with q := .omitted }) ∧
  (∀ (a : AsmLine) (i : Instr) (it : BitVec 4), assembleT1 it a = some i →
    disassemble it i = some { a with q := .omitted })

/-- Words worked out in the spec from the two diagrams, at their bytes (95_test_vectors.md sections 2 and 3; the byte order
is log entry 10, the names of the last two log entries 20 and 19). -/
def Obligations.WorkedWordsDecode : Prop :=
  decodeBytes .a32 0x11#8 0x04#8 0xCB#8 0xE7#8 = .instr (.bfiA1 0b1110#4 0 1 8 11) ∧
  decodeBytes .t32 0x61#8 0xF3#8 0x0B#8 0x20#8 = .instr (.bfiT1 0 1 8 11) ∧
  decodeBytes .a32 0x98#8 0x72#8 0xCA#8 0xB7#8 = .instr (.bfiA1 0b1011#4 7 8 5 10) ∧
  decodeBytes .t32 0x60#8 0xF3#8 0x1F#8 0x0D#8 = .instr (.bfiT1 13 0 0 31) ∧
  decodeBytes .a32 0x1F#8 0x04#8 0xCB#8 0xE7#8 = .refuse .seeBfc ∧
  decodeBytes .t32 0x61#8 0xF7#8 0x0B#8 0x20#8 = .fault .sbzViolated

/-! ## Fetch, the step and runs -/

/-- Fetch puts together the four bytes at the pc: one little-endian word in A32, two little-endian halfwords with the first
as bits 31:16 in T32 (20_memory.md section 3; general knowledge the spec supplies, log entry 10). -/
def Obligations.FetchAssemblesBytes : Prop :=
  ∀ (s : State) (b0 b1 b2 b3 : Byte), s.pc.toNat + 3 < 2 ^ 32 →
    progRead s.prog s.pc.toNat = some b0 → progRead s.prog (s.pc.toNat + 1) = some b1 →
    progRead s.prog (s.pc.toNat + 2) = some b2 → progRead s.prog (s.pc.toNat + 3) = some b3 →
      ∃ w, fetch s = some w ∧
        w.toNat = (match s.iset with
          | .a32 => b3.toNat * 2 ^ 24 + b2.toNat * 2 ^ 16 + b1.toNat * 2 ^ 8 + b0.toNat
          | .t32 => (b1.toNat * 2 ^ 8 + b0.toNat) * 2 ^ 16 + (b3.toNat * 2 ^ 8 + b2.toNat))

/-- Away from END_PC an admitted state is stuck exactly when one of the four fetch addresses has no byte or lies past the
end of the address space (20_memory.md section 4, the spec's decision, log entry 26; END_PC is log entry 7, what is admitted
log entries 8, 12 and 14). -/
def Obligations.StuckExactlyWhereFetchIsUnmapped : Prop :=
  ∀ s : State, launchRefusal s = none → s.pc ≠ s.endPc →
    (step s = .fault .stuck ↔
      2 ^ 32 ≤ s.pc.toNat + 3 ∨ ∃ k < 4, progRead s.prog (s.pc.toNat + k) = none)

/-- A step runs the decoded instruction: when the four bytes at the pc decode to an instruction, in an admitted state away
from END_PC, step is exec of it and adds nothing (40_bfi.md section 5; the byte order is log entry 10, the end of a run log
entry 7, what is admitted log entries 8, 12 and 14). -/
def Obligations.StepRunsDecodedInstruction : Prop :=
  ∀ (s : State) (i : Instr) (b0 b1 b2 b3 : Byte), launchRefusal s = none → s.pc ≠ s.endPc → s.pc.toNat + 3 < 2 ^ 32 →
    progRead s.prog s.pc.toNat = some b0 → progRead s.prog (s.pc.toNat + 1) = some b1 →
    progRead s.prog (s.pc.toNat + 2) = some b2 → progRead s.prog (s.pc.toNat + 3) = some b3 →
    decodeBytes s.iset b0 b1 b2 b3 = .instr i → step s = exec i s

/-- A step at bytes that do not decode to an instruction stops by the decoder's name (60_exceptions.md section 2, the
spec's decision; log entries 19 and 20; END_PC is log entry 7, what is admitted log entries 8, 12 and 14). -/
def Obligations.StepStopsByDecodersName : Prop :=
  ∀ (s : State) (w : Word), launchRefusal s = none → s.pc ≠ s.endPc → fetch s = some w →
    (decode s.iset w = .refuse .notBfi → step s = .refused .notBfi) ∧
    (decode s.iset w = .refuse .cond1111 → step s = .refused .cond1111) ∧
    (decode s.iset w = .refuse .seeBfc → step s = .refused .seeBfc) ∧
    (decode s.iset w = .fault .sbzViolated → step s = .fault .unpredictableSbzViolated)

/-- Before any step: a misaligned pc is refused, then in T32 an IT state without a condition; an admitted state at END_PC
has ended (20_memory.md section 4, 60_exceptions.md section 2, 70_reset_and_hazards.md section 3: the spec's decisions;
log entries 7, 8, 12 and 14). -/
def Obligations.LaunchRefusedOrEnded : Prop :=
  ∀ s : State,
    (s.iset = .a32 → s.pc.toNat % 4 ≠ 0 → step s = .refused .pcMisaligned) ∧
    (s.iset = .t32 → s.pc.toNat % 2 ≠ 0 → step s = .refused .pcMisaligned) ∧
    (s.iset = .t32 → s.pc.toNat % 2 = 0 → s.itstate.toNat % 16 = 0 → s.itstate.toNat ≠ 0 →
      step s = .refused .itstateRefused) ∧
    (s.iset = .a32 → s.pc.toNat % 4 = 0 → s.pc = s.endPc → step s = .fault .ended) ∧
    (s.iset = .t32 → s.pc.toNat % 2 = 0 → s.itstate.toNat = 0 ∨ s.itstate.toNat % 16 ≠ 0 → s.pc = s.endPc →
      step s = .fault .ended)

/-- Every step that has a next state moves the pc on by 4 and no further: there is no control transfer (40_bfi.md section
5, derived there from a passage of general knowledge, log entry 13; where msbit < lsbit and NOP or UNKNOWN is drawn,
30_encoding.md section 5, log entry 25; both PRESUMED). -/
def Obligations.EveryStepMovesPcByFour : Prop :=
  ∀ s t : State, step s = .next t → t.pc.toNat = s.pc.toNat + 4

/-- No step changes the instruction set, program memory, END_PC, the flags or DIT; in A32 none changes the IT state, and in
T32 every one makes it its advance (10_state.md section 3 and 20_memory.md section 8). That the first three are run
parameters is the spec's decision (log entry 5), that A32 leaves the IT state alone log entry 29 (DESIGN CHOICE), its advance
in T32 general knowledge the spec supplies (log entry 12, PRESUMED), and all of it where msbit < lsbit and NOP or UNKNOWN is
drawn the meaning 30_encoding.md section 5 gives those two (log entry 25, PRESUMED). -/
def Obligations.StepKeepsRunParameters : Prop :=
  ∀ s t : State, step s = .next t →
    t.iset = s.iset ∧ t.prog = s.prog ∧ t.endPc = s.endPc ∧ t.flags = s.flags ∧ t.dit = s.dit ∧
    (s.iset = .a32 → t.itstate = s.itstate) ∧ (s.iset = .t32 → t.itstate = itAdvance s.itstate)

/-- What reset leaves: the values are the model's choice, since the spec gives none (log entries 6 and 7); the run of that
launch has already ended. -/
def Obligations.ResetState : Prop :=
  (∀ k : Fin 15, readGpr State.reset k = 0#32) ∧ State.reset.pc = 0#32 ∧ State.reset.endPc = 0#32 ∧
  State.reset.iset = .a32 ∧ itClear State.reset ∧ State.reset.prog = [] ∧
  State.reset.flags = { n := false, z := false, c := false, v := false } ∧ State.reset.dit = false ∧
  progMapped State.reset ∧ step State.reset = .fault .ended

/-- The invariant holds at reset. It follows from the reset values, which are the model's choice, since the spec gives none
and does not model reset (log entries 6 and 7, DESIGN CHOICE); the tests of the invariant are log entries 12 and 14. -/
def Obligations.InvAtReset : Prop := Inv State.reset

/-- Every step keeps the invariant: program memory in its one form, the pc aligned and, in T32, an IT state that has a
condition (20_memory.md section 4: alignment once true stays true). The alignment, the IT state and the pc are log entries
14, 12 and 13, and a step with msbit < lsbit log entry 25 (30_encoding.md section 5), all PRESUMED. -/
def Obligations.EveryStepKeepsInv : Prop :=
  ∀ s t : State, Inv s → step s = .next t → Inv t

/-- Every run of the model terminates, from any state whatever: after some number of steps, at most 2^30, there is no next
state (70_reset_and_hazards.md section 3, derived there; the pc is log entry 13, and where msbit < lsbit log entry 25). -/
def Obligations.EveryRunTerminates : Prop :=
  ∀ s : State, ∃ k, k ≤ 2 ^ 30 ∧ ∀ t : State, Host.Core.run Sys2Proof.core k s ≠ .next t

/-- Straight-line code reaches its end: from an admitted launch whose program is mapped up to END_PC and holds only defined
BFIs, the run takes exactly (END_PC - pc) / 4 steps, goes wrong in none, and ends at END_PC (70_reset_and_hazards.md
section 3, derived there; the end of a run is log entry 7, the pc log entry 13, the admitted IT state log entry 12). -/
def Obligations.StraightLineRunReachesEnd : Prop :=
  ∀ s : State, Inv s → progMapped s → allDefined s →
    ∃ t : State, Host.Core.run Sys2Proof.core ((s.endPc.toNat - s.pc.toNat) / 4) s = .next t ∧
      t.pc = s.endPc ∧ step t = .fault .ended ∧ wentWrong (step t) = false ∧
      t.flags = s.flags ∧ t.prog = s.prog

/-- Placing a word makes the very next step run it, in the instruction set it belongs to, from every state whatever (the
model's launch, log entry 22). -/
def Obligations.PlacedWordIsRunNext : Prop :=
  ∀ (s : State) (w : Word),
    step (s.withFetchWord 32 w.toNat) = runDecoded (decode (tableISet w) w) (s.withFetchWord 32 w.toNat)
end

