-- ==== Sys2Proof/Laws/Encoding.lean ====
section
/-! SUPPORT. The encoder as arithmetic on fields, and the masks of rules R57 and R60 as fields of the word. -/

namespace Sys2Proof

/-- A concatenation as arithmetic. -/
theorem append_toNat {a b : Nat} (x : BitVec a) (y : BitVec b) : (x ++ y).toNat = x.toNat * 2 ^ b + y.toNat := by
  rw [BitVec.toNat_append, Nat.shiftLeft_eq, Nat.mul_comm, ← Nat.two_pow_add_eq_or_of_lt y.isLt]

/-- The A1 word as a sum of its fields (rule R56). -/
theorem encodeA1_toNat (c : BitVec 4) (d n : RegNum) (l m : BitPos) :
    (encode (.bfiA1 c d n l m)).toNat =
      c.toNat * 2 ^ 28 + 0b0111110 * 2 ^ 21 + m.val * 2 ^ 16 + d.val * 2 ^ 12 + l.val * 2 ^ 7 + 0b001 * 2 ^ 4 + n.val := by
  unfold encode
  refine (append_toNat _ _).trans ?_
  rw [append_toNat, append_toNat, append_toNat, append_toNat, append_toNat]
  simp only [BitVec.toNat_ofFin, BitVec.toNat_ofNat]
  omega

/-- The T1 word as a sum of its fields (rule R59). -/
theorem encodeT1_toNat (d n : RegNum) (l m : BitPos) :
    (encode (.bfiT1 d n l m)).toNat =
      0xF3600000 + n.val * 2 ^ 16 + (l.val / 4) * 2 ^ 12 + d.val * 2 ^ 8 + (l.val % 4) * 2 ^ 6 + m.val := by
  unfold encode
  refine (append_toNat _ _).trans ?_
  simp only [append_toNat, BitVec.toNat_ofFin, BitVec.toNat_ofNat, BitVec.extractLsb'_toNat,
    Nat.shiftRight_eq_div_pow]
  have := l.isLt
  omega

/-- A field of a word as arithmetic. -/
theorem field_toNat (w : Word) (k len : Nat) : (w.extractLsb' k len).toNat = w.toNat / 2 ^ k % 2 ^ len := by
  rw [BitVec.extractLsb'_toNat, Nat.shiftRight_eq_div_pow]

/-- A masked comparison, bit by bit. -/
theorem and_eq_iff_bits (w mask v : Word) :
    w &&& mask = v ↔ ∀ i < 32, (w.getLsbD i && mask.getLsbD i) = v.getLsbD i := by
  constructor
  · rintro rfl i _; simp
  · intro h
    apply BitVec.eq_of_getLsbD_eq
    intro i hi
    rw [BitVec.getLsbD_and]; exact h i hi

/-- A field's value, bit by bit. -/
theorem extract_eq_iff_bits (w : Word) (k len : Nat) (v : BitVec len) :
    w.extractLsb' k len = v ↔ ∀ i < len, w.getLsbD (k + i) = v.getLsbD i := by
  constructor
  · rintro rfl i hi; simp [hi]
  · intro h
    apply BitVec.eq_of_getLsbD_eq
    intro i hi
    simp [hi, h i hi]

/-- The mask of rule R57 is the two fixed fields of rule R56. -/
theorem fixedA1_iff (w : Word) :
    fixedA1 w = true ↔ w.extractLsb' 21 7 = 0b0111110#7 ∧ w.extractLsb' 4 3 = 0b001#3 := by
  unfold fixedA1
  rw [beq_iff_eq, and_eq_iff_bits, extract_eq_iff_bits, extract_eq_iff_bits]
  constructor
  · intro h
    refine ⟨fun i hi => ?_, fun i hi => ?_⟩
    · have := h (21 + i) (by omega)
      interval_cases i <;> simpa using this
    · have := h (4 + i) (by omega)
      interval_cases i <;> simpa using this
  · rintro ⟨a, b⟩ i hi
    obtain h | h | h | h | h : i < 4 ∨ (4 ≤ i ∧ i < 7) ∨ (7 ≤ i ∧ i < 21) ∨ (21 ≤ i ∧ i < 28) ∨ 28 ≤ i := by omega
    · interval_cases i <;> simp
    · obtain ⟨j, rfl⟩ := Nat.exists_eq_add_of_le h.1
      have hj : j < 3 := by omega
      rw [b j hj]; interval_cases j <;> simp
    · obtain ⟨h1, h2⟩ := h
      interval_cases i <;> simp
    · obtain ⟨j, rfl⟩ := Nat.exists_eq_add_of_le h.1
      have hj : j < 7 := by omega
      rw [a j hj]; interval_cases j <;> simp
    · interval_cases i <;> simp

/-- The mask of rule R60 is the fixed fields of rule R59 but for its two should-be-zero bits. -/
theorem fixedT1_iff (w : Word) :
    fixedT1 w = true ↔
      w.extractLsb' 27 5 = 0b11110#5 ∧ w.extractLsb' 20 6 = 0b110110#6 ∧ w.extractLsb' 15 1 = 0b0#1 := by
  unfold fixedT1
  rw [beq_iff_eq, and_eq_iff_bits, extract_eq_iff_bits, extract_eq_iff_bits, extract_eq_iff_bits]
  constructor
  · intro h
    refine ⟨fun i hi => ?_, fun i hi => ?_, fun i hi => ?_⟩
    · have := h (27 + i) (by omega)
      interval_cases i <;> simpa using this
    · have := h (20 + i) (by omega)
      interval_cases i <;> simpa using this
    · have := h (15 + i) (by omega)
      interval_cases i; simpa using this
  · rintro ⟨a, b, c⟩ i hi
    obtain h | h | h | h | h | h : i < 15 ∨ i = 15 ∨ (16 ≤ i ∧ i < 20) ∨ (20 ≤ i ∧ i < 26) ∨ i = 26 ∨ 27 ≤ i := by omega
    · interval_cases i <;> simp
    · subst h; have := c 0 (by omega); simpa using this
    · obtain ⟨h1, h2⟩ := h
      interval_cases i <;> simp
    · obtain ⟨j, rfl⟩ := Nat.exists_eq_add_of_le h.1
      have hj : j < 6 := by omega
      rw [b j hj]; interval_cases j <;> simp
    · subst h; simp
    · obtain ⟨j, rfl⟩ := Nat.exists_eq_add_of_le h
      have hj : j < 5 := by omega
      rw [a j hj]; interval_cases j <;> simp

/-- The two should-be-zero bits of rule R68 as fields. -/
theorem sbzClear_iff (w : Word) :
    sbzClear w = true ↔ w.extractLsb' 26 1 = 0b0#1 ∧ w.extractLsb' 5 1 = 0b0#1 := by
  rw [extract_eq_iff_bits, extract_eq_iff_bits]
  simp [sbzClear]

end Sys2Proof
end

