-- ==== Sys2Proof/Laws/Decode.lean ====
section
/-! SUPPORT. The decoder: exactly which words it takes as an instruction, and what reading bytes gives back. -/

namespace Sys2Proof

@[simp] theorem regField_val (b : BitVec 4) : (regField b).val = b.toNat := rfl
@[simp] theorem posField_val (b : BitVec 5) : (posField b).val = b.toNat := rfl

/-- A register field is the number it holds. -/
theorem regField_eq (b : BitVec 4) (k : RegNum) : regField b = k ↔ b.toNat = k.val := Fin.ext_iff

/-- A position field is the number it holds. -/
theorem posField_eq (b : BitVec 5) (k : BitPos) : posField b = k ↔ b.toNat = k.val := Fin.ext_iff

/-- A register field holds 15 exactly when its four bits are ones. -/
theorem regField_eq_15 (b : BitVec 4) : regField b = 15 ↔ b = 0b1111#4 := by
  revert b; decide

/-- A bit vector is the vector of a number exactly when it holds that number. -/
theorem eq_ofNat_iff {k : Nat} (a : BitVec k) (v : Nat) (hv : v < 2 ^ k) : a = BitVec.ofNat k v ↔ a.toNat = v := by
  constructor
  · rintro rfl; rw [BitVec.toNat_ofNat, Nat.mod_eq_of_lt hv]
  · rintro rfl; simp

/-- The encoding tests pass exactly on well-formed terms. -/
theorem encodingRefusal_none (i : Instr) : encodingRefusal i = none ↔ wellFormed i = true := by
  cases i <;> simp only [encodingRefusal, wellFormed]
  · split
    · simp_all
    · split <;> simp_all
  · split <;> simp_all

/-- The words A32 takes as an instruction. -/
theorem decode_a32_instr (w : Word) (i : Instr) :
    decode .a32 w = .instr i ↔ fixedA1 w = true ∧ wellFormed (fieldsA1 w) = true ∧ fieldsA1 w = i := by
  rw [← encodingRefusal_none]
  unfold decode decodeA32
  simp only
  split
  · next h =>
    split
    · next r hr => simp [hr]
    · next hr => simp [h, hr]
  · next h => simp [h]

/-- The words T32 takes as an instruction. -/
theorem decode_t32_instr (w : Word) (i : Instr) :
    decode .t32 w = .instr i ↔
      fixedT1 w = true ∧ wellFormed (fieldsT1 w) = true ∧ sbzClear w = true ∧ fieldsT1 w = i := by
  rw [← encodingRefusal_none]
  unfold decode decodeT32
  simp only
  split
  · next h =>
    split
    · next r hr => simp [hr]
    · next hr => split <;> simp_all
  · next h => simp [h]

/-- The strict mask of rule R60 is the hard mask with the two should-be-zero bits clear. -/
theorem strictMask_iff (w : Word) :
    w &&& 0xFFF08020#32 = 0xF3600000#32 ↔ w &&& 0xFBF08000#32 = 0xF3600000#32 ∧ sbzClear w = true := by
  rw [sbzClear_iff, and_eq_iff_bits, and_eq_iff_bits, extract_eq_iff_bits, extract_eq_iff_bits]
  constructor
  · intro h
    refine ⟨fun i hi => ?_, fun i hi => ?_, fun i hi => ?_⟩
    · have := h i hi
      interval_cases i <;> simp_all
    · have := h 26 (by omega); interval_cases i; simpa using this
    · have := h 5 (by omega); interval_cases i; simpa using this
  · rintro ⟨h, h1, h2⟩ i hi
    have := h i hi
    have a := h1 0 (by omega)
    have b := h2 0 (by omega)
    interval_cases i <;> simp_all

/-- The four bytes of a word, read back, are the word (rule R42). -/
theorem wordOfBytes_bytesOfWord (iset : ISet) (w : Word) :
    ∃ b0 b1 b2 b3, bytesOfWord iset w = [b0, b1, b2, b3] ∧ wordOfBytes iset b0 b1 b2 b3 = w := by
  cases iset <;>
    exact ⟨_, _, _, _, rfl, by
      unfold wordOfBytes
      apply BitVec.eq_of_toNat_eq
      refine (append_toNat _ _).trans ?_
      rw [append_toNat, append_toNat]
      simp only [field_toNat]
      have := w.isLt
      omega⟩

end Sys2Proof
end

