-- ==== Sys2Proof/Laws/Memory.lean ====
section
/-! SUPPORT. Program memory: reading after writing, and that every operation keeps its one form. -/

namespace Sys2Proof.Machine

theorem progRead_go_same (k : Nat) (v : Byte) (m : List Host.Cell) : progRead (progWrite.go k v m) k = some v := by
  induction m with
  | nil => simp [progWrite.go, progRead]
  | cons p rest ih =>
    obtain ⟨a, b⟩ := p
    unfold progWrite.go
    split
    · next h => simp [progRead, ih, Nat.ne_of_lt h]
    · split <;> simp [progRead]

theorem progRead_go_other (k j : Nat) (v : Byte) (h : j ≠ k) (m : List Host.Cell) :
    progRead (progWrite.go k v m) j = progRead m j := by
  have hk : k ≠ j := h.symm
  induction m with
  | nil => simp [progWrite.go, progRead, hk]
  | cons p rest ih =>
    obtain ⟨a, b⟩ := p
    unfold progWrite.go
    split
    · simp [progRead, ih]
    · split
      · next ha => subst ha; simp [progRead, hk]
      · simp [progRead, hk]

/-- A byte written inside the address space reads back. -/
theorem progRead_progWrite_same (m : List Host.Cell) (k : Nat) (v : Byte) (h : k < 2 ^ 32) :
    progRead (progWrite m k v) k = some v := by
  simp only [progWrite, h, if_true]
  exact progRead_go_same k v m

/-- Writing one address leaves every other as it was. -/
theorem progRead_progWrite_other (m : List Host.Cell) (k j : Nat) (v : Byte) (h : j ≠ k) :
    progRead (progWrite m k v) j = progRead m j := by
  unfold progWrite
  split
  · exact progRead_go_other k j v h m
  · rfl

/-- Writing bytes at rising addresses leaves every lower address as it was. -/
theorem progRead_progWriteBytes_below (bs : List Byte) (m : List Host.Cell) (k j : Nat) (h : j < k) :
    progRead (progWriteBytes m k bs) j = progRead m j := by
  induction bs generalizing m k with
  | nil => rfl
  | cons v rest ih =>
    unfold progWriteBytes
    rw [ih _ _ (by omega), progRead_progWrite_other _ _ _ _ (by omega)]

/-- The address of every cell after an insertion is the new one or an old one. -/
theorem mem_go (k : Nat) (v : Byte) (m : List Host.Cell) (p : Host.Cell) (h : p ∈ progWrite.go k v m) :
    p = (k, v) ∨ p ∈ m := by
  induction m with
  | nil => simpa [progWrite.go] using h
  | cons q rest ih =>
    obtain ⟨a, b⟩ := q
    unfold progWrite.go at h
    split at h
    · rcases List.mem_cons.1 h with h | h
      · simp [h]
      · rcases ih h with h | h <;> simp [h]
    · split at h <;> simp only [List.mem_cons] at h ⊢ <;> tauto

theorem pairwise_go (k : Nat) (v : Byte) (m : List Host.Cell) (h : m.Pairwise (fun p q => p.1 < q.1)) :
    (progWrite.go k v m).Pairwise (fun p q => p.1 < q.1) := by
  induction m with
  | nil => simp [progWrite.go]
  | cons q rest ih =>
    obtain ⟨a, b⟩ := q
    rw [List.pairwise_cons] at h
    unfold progWrite.go
    split
    · next hak =>
      refine List.pairwise_cons.2 ⟨fun p hp => ?_, ih h.2⟩
      rcases mem_go k v rest p hp with rfl | hp
      · exact hak
      · exact h.1 p hp
    · split
      · next hak => subst hak; exact List.pairwise_cons.2 ⟨h.1, h.2⟩
      · next hlt hne =>
        refine List.pairwise_cons.2 ⟨fun p hp => ?_, List.pairwise_cons.2 h⟩
        rcases List.mem_cons.1 hp with rfl | hp
        · show k < a; omega
        · have := h.1 p hp; show k < p.1; simp only at this; omega

/-- Writing a byte keeps the form. -/
theorem progWrite_wf (m : List Host.Cell) (k : Nat) (v : Byte) (h : Memory.wf m = true) :
    Memory.wf (progWrite m k v) = true := by
  unfold progWrite
  split
  · next hk =>
    simp only [Memory.wf, Bool.and_eq_true, decide_eq_true_eq, List.all_eq_true] at h ⊢
    refine ⟨pairwise_go k v m h.1, fun p hp => ?_⟩
    rcases mem_go k v m p hp with rfl | hp
    · exact hk
    · exact h.2 p hp
  · exact h

/-- Writing bytes keeps the form. -/
theorem progWriteBytes_wf (bs : List Byte) (m : List Host.Cell) (k : Nat) (h : Memory.wf m = true) :
    Memory.wf (progWriteBytes m k bs) = true := by
  induction bs generalizing m k with
  | nil => exact h
  | cons v rest ih => exact ih _ _ (progWrite_wf m k v h)

/-- Program memory right after reset has the form. -/
theorem reset_memory_wf : Memory.wf State.reset.prog = true := rfl

/-- Placing a word keeps the form. -/
theorem placeWord_wf (iset : ISet) (w : Word) (s : State) (h : Memory.wf s.prog = true) :
    Memory.wf (placeWord iset w s).prog = true :=
  progWriteBytes_wf _ _ _ h

end Sys2Proof.Machine
end

