-- ==== Sys2Proof/Laws/State.lean ====
section
/-! SUPPORT. One lemma per field per update of State, so that no proof unfolds a record update; and reading a register
back after each update. -/

namespace Sys2Proof.Machine

variable (s : State)

@[simp] theorem writeGpr_x (k : Fin 15) (v : Word) : (writeGpr s k v).x = s.x.set k.val v k.isLt := rfl
@[simp] theorem writeGpr_pc (k : Fin 15) (v : Word) : (writeGpr s k v).pc = s.pc := rfl
@[simp] theorem writeGpr_flags (k : Fin 15) (v : Word) : (writeGpr s k v).flags = s.flags := rfl
@[simp] theorem writeGpr_dit (k : Fin 15) (v : Word) : (writeGpr s k v).dit = s.dit := rfl
@[simp] theorem writeGpr_itstate (k : Fin 15) (v : Word) : (writeGpr s k v).itstate = s.itstate := rfl
@[simp] theorem writeGpr_iset (k : Fin 15) (v : Word) : (writeGpr s k v).iset = s.iset := rfl
@[simp] theorem writeGpr_prog (k : Fin 15) (v : Word) : (writeGpr s k v).prog = s.prog := rfl
@[simp] theorem writeGpr_endPc (k : Fin 15) (v : Word) : (writeGpr s k v).endPc = s.endPc := rfl
@[simp] theorem writeGpr_draws (k : Fin 15) (v : Word) : (writeGpr s k v).draws = s.draws := rfl

@[simp] theorem setPc_x (v : Word) : (setPc s v).x = s.x := rfl
@[simp] theorem setPc_pc (v : Word) : (setPc s v).pc = v := rfl
@[simp] theorem setPc_flags (v : Word) : (setPc s v).flags = s.flags := rfl
@[simp] theorem setPc_dit (v : Word) : (setPc s v).dit = s.dit := rfl
@[simp] theorem setPc_itstate (v : Word) : (setPc s v).itstate = s.itstate := rfl
@[simp] theorem setPc_iset (v : Word) : (setPc s v).iset = s.iset := rfl
@[simp] theorem setPc_prog (v : Word) : (setPc s v).prog = s.prog := rfl
@[simp] theorem setPc_endPc (v : Word) : (setPc s v).endPc = s.endPc := rfl
@[simp] theorem setPc_draws (v : Word) : (setPc s v).draws = s.draws := rfl

@[simp] theorem setItstate_x (v : BitVec 8) : (setItstate s v).x = s.x := rfl
@[simp] theorem setItstate_pc (v : BitVec 8) : (setItstate s v).pc = s.pc := rfl
@[simp] theorem setItstate_flags (v : BitVec 8) : (setItstate s v).flags = s.flags := rfl
@[simp] theorem setItstate_dit (v : BitVec 8) : (setItstate s v).dit = s.dit := rfl
@[simp] theorem setItstate_itstate (v : BitVec 8) : (setItstate s v).itstate = v := rfl
@[simp] theorem setItstate_iset (v : BitVec 8) : (setItstate s v).iset = s.iset := rfl
@[simp] theorem setItstate_prog (v : BitVec 8) : (setItstate s v).prog = s.prog := rfl
@[simp] theorem setItstate_endPc (v : BitVec 8) : (setItstate s v).endPc = s.endPc := rfl
@[simp] theorem setItstate_draws (v : BitVec 8) : (setItstate s v).draws = s.draws := rfl

@[simp] theorem nextDraw_x : (nextDraw s).x = s.x := rfl
@[simp] theorem nextDraw_pc : (nextDraw s).pc = s.pc := rfl
@[simp] theorem nextDraw_flags : (nextDraw s).flags = s.flags := rfl
@[simp] theorem nextDraw_dit : (nextDraw s).dit = s.dit := rfl
@[simp] theorem nextDraw_itstate : (nextDraw s).itstate = s.itstate := rfl
@[simp] theorem nextDraw_iset : (nextDraw s).iset = s.iset := rfl
@[simp] theorem nextDraw_prog : (nextDraw s).prog = s.prog := rfl
@[simp] theorem nextDraw_endPc : (nextDraw s).endPc = s.endPc := rfl
@[simp] theorem nextDraw_draws : (nextDraw s).draws = s.draws + 1 := rfl

@[simp] theorem readGpr_setPc (v : Word) (k : Fin 15) : readGpr (setPc s v) k = readGpr s k := rfl
@[simp] theorem readGpr_setItstate (v : BitVec 8) (k : Fin 15) : readGpr (setItstate s v) k = readGpr s k := rfl
@[simp] theorem readGpr_nextDraw (k : Fin 15) : readGpr (nextDraw s) k = readGpr s k := rfl

/-- A register reads as it was written. -/
@[simp] theorem readGpr_writeGpr_same (k : Fin 15) (v : Word) : readGpr (writeGpr s k v) k = v := by
  simp [readGpr, writeGpr, Vector.get_eq_getElem]

/-- Writing one register leaves every other as it was. -/
@[simp] theorem readGpr_writeGpr_other (k j : Fin 15) (v : Word) (h : j ≠ k) :
    readGpr (writeGpr s k v) j = readGpr s j := by
  have hv : k.val ≠ j.val := fun e => h (Fin.ext e.symm)
  simp [readGpr, writeGpr, Vector.get_eq_getElem, Vector.getElem_set_ne, hv]

end Sys2Proof.Machine
end

