-- ==== Sys2Proof/Laws/Ops.lean ====
section
/-! SUPPORT. One lemma per shared operation that says everything it can do; the proofs about exec and step cite these. -/

namespace Sys2Proof.Machine

@[simp] theorem gpr?_castSucc (k : Fin 15) : gpr? k.castSucc = some k := by
  simp [gpr?]

@[simp] theorem gpr?_last : gpr? 15 = none := by decide

/-- The registers BFI can name are 0 to 14. -/
theorem gpr?_eq_some (k : RegNum) (j : Fin 15) : gpr? k = some j ↔ k = j.castSucc := by
  unfold gpr?
  split
  · next h => simp only [Option.some.injEq, Fin.ext_iff, Fin.val_castSucc]
  · next h =>
    simp only [reduceCtorEq, Fin.ext_iff, Fin.val_castSucc, false_iff]
    omega

/-- Only number 15 names no register. -/
theorem gpr?_eq_none (k : RegNum) : gpr? k = none ↔ k = 15 := by
  revert k; decide

/-- Completing an instruction answers a next state exactly where the pc can move on. -/
theorem retire_next (it : BitVec 8) (s t : State) :
    retire it s = .next t ↔ s.pc.toNat + 4 < 2 ^ 32 ∧ t = setPc (setItstate s it) (s.pc + 4#32) := by
  unfold retire
  split
  · next h => simp only [reduceCtorEq, false_iff]; omega
  · next h =>
    simp only [Host.Outcome.next.injEq]
    constructor
    · rintro rfl; exact ⟨by omega, rfl⟩
    · rintro ⟨_, rfl⟩; rfl

/-- Where the pc cannot move on, completing an instruction faults. -/
theorem retire_wrap (it : BitVec 8) (s : State) (h : 2 ^ 32 ≤ s.pc.toNat + 4) : retire it s = .fault .pcWrap := by
  unfold retire
  rw [if_pos (by omega)]

/-- Everything the shared operation can do when it answers a next state: the field is inserted, the condition failed, or
one of the two running behaviours of msbit < lsbit was drawn. -/
theorem execBfi_next (cond : BitVec 4) (it : BitVec 8) (d n : RegNum) (l m : BitPos) (s t : State)
    (h : execBfi cond it d n l m s = .next t) :
    ∃ d' n' : Fin 15, d = d'.castSucc ∧ n = n'.castSucc ∧ s.pc.toNat + 4 < 2 ^ 32 ∧
      ((l ≤ m ∧ conditionHolds cond s.flags = true ∧
          t = setPc (setItstate (writeGpr s d' (bfi32 (readGpr s d') (readGpr s n') l.val m.val)) it) (s.pc + 4#32)) ∨
        (l ≤ m ∧ conditionHolds cond s.flags = false ∧ t = setPc (setItstate s it) (s.pc + 4#32)) ∨
        (m < l ∧ t = setPc (setItstate (nextDraw s) it) (s.pc + 4#32)) ∨
        (m < l ∧ t = setPc (setItstate (writeGpr (nextDraw s) d' (Config.unknownWord s.draws)) it) (s.pc + 4#32))) := by
  unfold execBfi at h
  split at h
  · cases h
  · next n' hn =>
    split at h
    · cases h
    · next d' hd =>
      refine ⟨d', n', (gpr?_eq_some _ _).1 hd, (gpr?_eq_some _ _).1 hn, ?_⟩
      split at h
      · next hml =>
        unfold execMsbLtLsb at h
        split at h
        · cases h
        · obtain ⟨hp, rfl⟩ := (retire_next _ _ _).1 h
          exact ⟨hp, .inr (.inr (.inl ⟨hml, rfl⟩))⟩
        · obtain ⟨hp, rfl⟩ := (retire_next _ _ _).1 h
          exact ⟨hp, .inr (.inr (.inr ⟨hml, rfl⟩))⟩
      · next hml =>
        split at h
        · next hc =>
          obtain ⟨hp, rfl⟩ := (retire_next _ _ _).1 h
          exact ⟨hp, .inl ⟨Fin.not_lt.1 hml, hc, rfl⟩⟩
        · next hc =>
          obtain ⟨hp, rfl⟩ := (retire_next _ _ _).1 h
          exact ⟨hp, .inr (.inl ⟨Fin.not_lt.1 hml, Bool.not_eq_true _ ▸ hc, rfl⟩)⟩

/-- A1 answers a next state only through the shared operation, with its own condition and the IT state kept. -/
theorem execBfiA1_next (cond : BitVec 4) (d n : RegNum) (l m : BitPos) (s t : State)
    (h : execBfiA1 cond d n l m s = .next t) :
    cond ≠ 0b1111#4 ∧ execBfi cond s.itstate d n l m s = .next t := by
  unfold execBfiA1 at h
  split at h
  · cases h
  · exact ⟨‹_›, h⟩

/-- T1 answers a next state only through the shared operation, with the IT state's condition, the IT state advancing. -/
theorem execBfiT1_next (d n : RegNum) (l m : BitPos) (s t : State) (h : execBfiT1 d n l m s = .next t) :
    ∃ cond, currentCondT32 s.itstate = some cond ∧ execBfi cond (itAdvance s.itstate) d n l m s = .next t := by
  unfold execBfiT1 at h
  split at h
  · cases h
  · next c hc => exact ⟨c, hc, h⟩

/-- Advancing an IT state that has a current condition leaves one that has. -/
theorem itAdvance_admitted (it : BitVec 8) (h : (currentCondT32 it).isSome = true) :
    (currentCondT32 (itAdvance it)).isSome = true := by
  revert it; decide

/-- A step answers a next state only by running the instruction it fetched and decoded. -/
theorem step_next (s t : State) (h : step s = .next t) :
    launchRefusal s = none ∧ s.pc ≠ s.endPc ∧
      ∃ w i, fetch s = some w ∧ decode s.iset w = .instr i ∧ exec i s = .next t := by
  unfold step at h
  split at h
  · cases h
  · next hl =>
    split at h
    · cases h
    · next hp =>
      split at h
      · cases h
      · next w hw =>
        unfold runDecoded at h
        split at h
        · next i hi => exact ⟨hl, hp, w, i, hw, hi, h⟩
        · cases h
        · cases h

/-! ## The shared operation, case by case -/

/-- With room above the pc, completing an instruction answers this next state. -/
theorem retire_fits (it : BitVec 8) (s : State) (h : s.pc.toNat + 4 < 2 ^ 32) :
    retire it s = .next (setPc (setItstate s it) (s.pc + 4#32)) := (retire_next _ _ _).2 ⟨h, rfl⟩

/-- A defined BFI whose condition passes. -/
theorem execBfi_passed (c : BitVec 4) (it : BitVec 8) (d n : Fin 15) (l m : BitPos) (s : State) (h : l ≤ m)
    (hc : conditionHolds c s.flags = true) :
    execBfi c it d.castSucc n.castSucc l m s =
      retire it (writeGpr s d (bfi32 (readGpr s d) (readGpr s n) l.val m.val)) := by
  unfold execBfi
  rw [gpr?_castSucc, gpr?_castSucc]
  simp only [Fin.not_lt.2 h, hc, if_true, if_false]

/-- A defined BFI whose condition fails. -/
theorem execBfi_failed (c : BitVec 4) (it : BitVec 8) (d n : Fin 15) (l m : BitPos) (s : State) (h : l ≤ m)
    (hc : conditionHolds c s.flags = false) : execBfi c it d.castSucc n.castSucc l m s = retire it s := by
  unfold execBfi
  rw [gpr?_castSucc, gpr?_castSucc]
  simp [Fin.not_lt.2 h, hc]

/-- A BFI with msbit < lsbit, whatever its condition. -/
theorem execBfi_msbLtLsb (c : BitVec 4) (it : BitVec 8) (d n : Fin 15) (l m : BitPos) (s : State) (h : m < l) :
    execBfi c it d.castSucc n.castSucc l m s = execMsbLtLsb it d s := by
  unfold execBfi
  rw [gpr?_castSucc, gpr?_castSucc]
  simp [h]

/-- A1 with a condition the diagram allows is the shared operation, the IT state kept. -/
theorem exec_bfiA1 (c : BitVec 4) (d n : RegNum) (l m : BitPos) (s : State) (h : c ≠ 0b1111#4) :
    exec (.bfiA1 c d n l m) s = execBfi c s.itstate d n l m s := by
  simp only [exec, execBfiA1, h, if_false]

/-- T1 under an IT state with a condition is the shared operation, the IT state advancing. -/
theorem exec_bfiT1 (c : BitVec 4) (d n : RegNum) (l m : BitPos) (s : State) (h : currentCondT32 s.itstate = some c) :
    exec (.bfiT1 d n l m) s = execBfi c (itAdvance s.itstate) d n l m s := by
  simp only [exec, execBfiT1, h]

/-- exec answers a next state only through the shared operation, under some condition. -/
theorem exec_next (i : Instr) (s t : State) (h : exec i s = .next t) :
    ∃ c it, execBfi c it (dstOf i) (srcOf i) (lsbitOf i) (msbitOf i) s = .next t ∧
      (isetOf i = .a32 ∧ it = s.itstate ∨
        isetOf i = .t32 ∧ it = itAdvance s.itstate ∧ currentCondT32 s.itstate = some c) := by
  cases i with
  | bfiA1 c d n l m => exact ⟨c, _, (execBfiA1_next _ _ _ _ _ _ _ h).2, .inl ⟨rfl, rfl⟩⟩
  | bfiT1 d n l m =>
    obtain ⟨c, hc, h⟩ := execBfiT1_next _ _ _ _ _ _ h
    exact ⟨c, _, h, .inr ⟨rfl, rfl, hc⟩⟩

/-! ## Fetch and step -/

/-- A launch is admitted exactly when both tests hold. -/
theorem launchRefusal_none (s : State) :
    launchRefusal s = none ↔ pcAligned s.iset s.pc = true ∧ itstateAdmitted s.iset s.itstate = true := by
  unfold launchRefusal
  split
  · split <;> simp_all
  · simp_all

/-- A step from an admitted state away from END_PC. -/
theorem step_running (s : State) (h : launchRefusal s = none) (he : s.pc ≠ s.endPc) :
    step s = match fetch s with
      | none => .fault .stuck
      | some w => runDecoded (decode s.iset w) s := by
  cases hf : fetch s <;> simp [step, h, he, hf]

/-- A fetch whose four bytes exist. -/
theorem fetch_mapped (s : State) (b0 b1 b2 b3 : Byte) (hp : s.pc.toNat + 3 < 2 ^ 32)
    (h0 : progRead s.prog s.pc.toNat = some b0) (h1 : progRead s.prog (s.pc.toNat + 1) = some b1)
    (h2 : progRead s.prog (s.pc.toNat + 2) = some b2) (h3 : progRead s.prog (s.pc.toNat + 3) = some b3) :
    fetch s = some (wordOfBytes s.iset b0 b1 b2 b3) := by
  unfold fetch
  rw [if_neg (by omega), h0, h1, h2, h3]

end Sys2Proof.Machine
end

