-- ==== Sys2Proof/Laws/PerInstr.lean ====
section
/-! SUPPORT. Statements made once per constructor of Instr. EncodingClass: the encoded word of an instruction is of its own
encoding's class and of no other. -/

namespace Sys2Proof.Laws.EncodingClass

/-- The word of an instruction has the fixed bits of its own encoding and not of the other (rules R57, R60), T1's
should-be-zero bits clear (rule R68). -/
def Statement (i : Instr) : Prop :=
  match isetOf i with
  | .a32 => fixedA1 (encode i) = true ∧ fixedT1 (encode i) = false
  | .t32 => fixedT1 (encode i) = true ∧ sbzClear (encode i) = true ∧ fixedA1 (encode i) = false

theorem bfiA1 (cond : BitVec 4) (d n : RegNum) (lsbit msbit : BitPos) :
    Statement (.bfiA1 cond d n lsbit msbit) := by
  have e := encodeA1_toNat cond d n lsbit msbit
  have := cond.isLt
  constructor
  · rw [fixedA1_iff]
    constructor <;> apply BitVec.eq_of_toNat_eq <;> rw [field_toNat, e] <;>
      simp only [BitVec.toNat_ofNat] <;> omega
  · rw [← Bool.not_eq_true, fixedT1_iff]
    rintro ⟨_, h, _⟩
    have h := congrArg BitVec.toNat h
    rw [field_toNat, e] at h
    simp only [BitVec.toNat_ofNat] at h
    omega

theorem bfiT1 (d n : RegNum) (lsbit msbit : BitPos) : Statement (.bfiT1 d n lsbit msbit) := by
  have e := encodeT1_toNat d n lsbit msbit
  have hhi : lsbit.val / 4 < 8 := by omega
  have hlo : lsbit.val % 4 < 4 := by omega
  generalize lsbit.val / 4 = hi at e hhi
  generalize lsbit.val % 4 = lo at e hlo
  refine ⟨?_, ?_, ?_⟩
  · rw [fixedT1_iff]
    refine ⟨?_, ?_, ?_⟩ <;> apply BitVec.eq_of_toNat_eq <;> rw [field_toNat, e] <;>
      simp only [BitVec.toNat_ofNat] <;> omega
  · rw [sbzClear_iff]
    constructor <;> apply BitVec.eq_of_toNat_eq <;> rw [field_toNat, e] <;>
      simp only [BitVec.toNat_ofNat] <;> omega
  · rw [← Bool.not_eq_true, fixedA1_iff]
    rintro ⟨h, _⟩
    have h := congrArg BitVec.toNat h
    rw [field_toNat, e] at h
    simp only [BitVec.toNat_ofNat] at h
    omega

end Sys2Proof.Laws.EncodingClass
end

