-- ==== Sys2Proof/Laws/Run.lean ====
section
/-! SUPPORT. Runs of the machine behind the host's interface, one step at a time. -/

namespace Sys2Proof.Machine

/-- A run of one more step goes on from the next state. -/
theorem run_next (M : Host.Core) (k : Nat) (s u : M.State) (h : M.step s = .next u) : M.run (k + 1) s = M.run k u := by
  rw [Host.Core.run, h]

/-- A run that answers a state took its first step and answered it from there. -/
theorem run_split (M : Host.Core) (k : Nat) (s t : M.State) (h : M.run (k + 1) s = .next t) :
    ∃ u, M.step s = .next u ∧ M.run k u = .next t := by
  rw [Host.Core.run] at h
  cases hs : M.step s with
  | next u => rw [hs] at h; exact ⟨u, rfl, h⟩
  | fault r => rw [hs] at h; cases h
  | refused r => rw [hs] at h; cases h

/-- The same of this machine's step. -/
theorem core_run_next (k : Nat) (s u : State) (h : step s = .next u) :
    Host.Core.run Sys2Proof.core (k + 1) s = Host.Core.run Sys2Proof.core k u :=
  run_next Sys2Proof.core k s u h

/-- The same of this machine's step. -/
theorem core_run_split (k : Nat) (s t : State) (h : Host.Core.run Sys2Proof.core (k + 1) s = .next t) :
    ∃ u : State, step s = .next u ∧ Host.Core.run Sys2Proof.core k u = .next t :=
  run_split Sys2Proof.core k s t h

/-- A run of no steps. -/
theorem core_run_zero (s t : State) (h : Host.Core.run Sys2Proof.core 0 s = .next t) : s = t := by
  have h : (Host.Outcome.next s : Result) = .next t := h
  cases h; rfl

end Sys2Proof.Machine
end

