-- ==== Sys2Proof/Tests/Slice0.lean ====
section
/-! SUPPORT. Tests: expected values are the spec's own (95_test_vectors.md and the worked examples of the rules), each on
one operation or one step; and, for each statement with hypotheses, a concrete input that meets them all. -/

namespace Sys2Proof.Tests
open Sys2Proof Sys2Proof.Machine

/-! ## Well-formedness: an ill-formed term for each check -/

theorem test_wf_accepts_a1 : wellFormed (.bfiA1 0b1110#4 0 1 8 11) = true := by decide
theorem test_wf_accepts_rd15_and_msb_below_lsb : wellFormed (.bfiT1 15 14 8 3) = true := by decide
theorem test_wf_refuses_cond_1111 : wellFormed (.bfiA1 0b1111#4 0 1 8 11) = false := by decide
theorem test_wf_refuses_a1_rn_1111 : wellFormed (.bfiA1 0b1110#4 0 15 8 11) = false := by decide
theorem test_wf_refuses_t1_rn_1111 : wellFormed (.bfiT1 0 15 8 11) = false := by decide

/-! ## Words written out from the spec's encoding (rules R56, R59; 95_test_vectors.md sections 2 and 3) -/

/-- BFI R0, R1, #8, #4 bit by bit: cond 1110, 0111110, msb 01011, Rd 0000, lsb 01000, 001, Rn 0001. -/
theorem test_decode_a1_bits :
    decode .a32 0b1110_0111110_01011_0000_01000_001_0001#32 = .instr (.bfiA1 0b1110#4 0 1 8 11) := by decide

/-- BFI R0, R1, #8, #4 bit by bit: 11110 0 11 01 1 0, Rn 0001, 0, imm3 010, Rd 0000, imm2 00, 0, msb 01011. -/
theorem test_decode_t1_bits :
    decode .t32 0b11110_0_11_01_1_0_0001_0_010_0000_00_0_01011#32 = .instr (.bfiT1 0 1 8 11) := by decide

/-- A row of the spec's table of encodings: condition, d, n, lsb, msb, A1 word, T1 word. -/
abbrev EncRow := BitVec 4 × RegNum × RegNum × BitPos × BitPos × Word × Word

/-- 95_test_vectors.md section 2. -/
def encRows1 : List EncRow :=
  [(0b1110#4, 0, 1, 8, 11, 0xE7CB0411#32, 0xF361200B#32), (0b1110#4, 2, 3, 4, 11, 0xE7CB2213#32, 0xF363120B#32),
   (0b1110#4, 0, 1, 0, 31, 0xE7DF0011#32, 0xF361001F#32), (0b1110#4, 0, 1, 0, 0, 0xE7C00011#32, 0xF3610000#32),
   (0b1110#4, 0, 1, 31, 31, 0xE7DF0F91#32, 0xF36170DF#32), (0b1110#4, 14, 13, 16, 31, 0xE7DFE81D#32, 0xF36D4E1F#32),
   (0b1110#4, 13, 0, 0, 31, 0xE7DFD010#32, 0xF3600D1F#32), (0b0000#4, 0, 1, 8, 11, 0x07CB0411#32, 0xF361200B#32),
   (0b0001#4, 0, 1, 8, 11, 0x17CB0411#32, 0xF361200B#32)]

/-- 95_test_vectors.md section 2, the other half. -/
def encRows2 : List EncRow :=
  [(0b1011#4, 7, 8, 5, 10, 0xB7CA7298#32, 0xF368174A#32), (0b1110#4, 4, 4, 16, 23, 0xE7D74814#32, 0xF3644417#32),
   (0b1110#4, 12, 14, 1, 30, 0xE7DEC09E#32, 0xF36E0C5E#32), (0b1110#4, 0, 0, 0, 11, 0xE7CB0010#32, 0xF360000B#32),
   (0b1110#4, 5, 6, 15, 31, 0xE7DF5796#32, 0xF36635DF#32), (0b1110#4, 9, 10, 3, 9, 0xE7C9919A#32, 0xF36A09C9#32),
   (0b0011#4, 1, 2, 12, 31, 0x37DF1612#32, 0xF362311F#32), (0b1110#4, 0, 0, 0, 0, 0xE7C00010#32, 0xF3600000#32),
   (0b1110#4, 14, 14, 31, 31, 0xE7DFEF9E#32, 0xF36E7EDF#32)]

/-- Decoding and encoding agree with a row. -/
def rowHolds : EncRow → Bool
  | (c, d, n, l, m, wA, wT) =>
    decode .a32 wA == .instr (.bfiA1 c d n l m) && encode (.bfiA1 c d n l m) == wA &&
      decode .t32 wT == .instr (.bfiT1 d n l m) && encode (.bfiT1 d n l m) == wT

theorem test_encoding_vectors_1 : encRows1.all rowHolds = true := by decide
theorem test_encoding_vectors_2 : encRows2.all rowHolds = true := by decide

theorem test_bytes_a1 : bytesOfWord .a32 0xE7CB0411#32 = [0x11#8, 0x04#8, 0xCB#8, 0xE7#8] := by decide
theorem test_bytes_t1 : bytesOfWord .t32 0xF361200B#32 = [0x61#8, 0xF3#8, 0x0B#8, 0x20#8] := by decide

/-- 95_test_vectors.md section 3, A32. -/
theorem test_a32_stops :
    decode .a32 0xE7CB041F#32 = .refuse .seeBfc ∧ decode .a32 0xF7CB0411#32 = .refuse .cond1111 ∧
    decode .a32 0xE7CBF41F#32 = .refuse .seeBfc ∧ decode .a32 0xE7CB0431#32 = .refuse .notBfi ∧
    decode .a32 0xE7EB0411#32 = .refuse .notBfi ∧ decode .a32 0xE1A00000#32 = .refuse .notBfi := by decide

/-- 95_test_vectors.md section 3, T32. -/
theorem test_t32_stops :
    decode .t32 0xF36F200B#32 = .refuse .seeBfc ∧ decode .t32 0xF761200B#32 = .fault .sbzViolated ∧
    decode .t32 0xF361202B#32 = .fault .sbzViolated ∧ decode .t32 0xF361A00B#32 = .refuse .notBfi ∧
    decode .t32 0xF371200B#32 = .refuse .notBfi ∧ decode .t32 0xF341200B#32 = .refuse .notBfi ∧
    decode .t32 0xBF00BF00#32 = .refuse .notBfi ∧ decode .t32 0xF76F2F03#32 = .refuse .seeBfc ∧
    decode .t32 0xF7612F03#32 = .fault .sbzViolated := by decide

/-- Both rows of the table at the word whose fields are all 0, as the table numbers it. -/
theorem test_table_words :
    decodeTableWord 32 0x07C00010 = some (.bfiA1 0b0000#4 0 0 0 0) ∧
    decodeTableWord 32 0xF3600000 = some (.bfiT1 0 0 0 0) ∧ decodeTableWord 32 0xE1A00000 = none := by decide

/-! ## Assembler (rules R76, R77) -/

theorem test_assemble_worked :
    (assembleA1 { cond := 0b1110#4, q := .omitted, rd := 0, rn := 1, lsb := 8, width := 4 }).map encode
      = some 0xE7CB0411#32 ∧
    (assembleT1 0b1110#4 { cond := 0b1110#4, q := .wide, rd := 0, rn := 1, lsb := 8, width := 4 }).map encode
      = some 0xF361200B#32 := by decide
theorem test_assemble_refuses :
    assembleA1 { cond := 0b1110#4, q := .narrow, rd := 0, rn := 1, lsb := 8, width := 4 } = none ∧
    assembleA1 { cond := 0b1110#4, q := .omitted, rd := 0, rn := 1, lsb := 8, width := 25 } = none ∧
    assembleA1 { cond := 0b1110#4, q := .omitted, rd := 0, rn := 1, lsb := 8, width := 0 } = none ∧
    assembleA1 { cond := 0b1110#4, q := .omitted, rd := 15, rn := 1, lsb := 8, width := 4 } = none ∧
    assembleA1 { cond := 0b1110#4, q := .omitted, rd := 0, rn := 15, lsb := 8, width := 4 } = none ∧
    assembleT1 0b1110#4 { cond := 0b0000#4, q := .omitted, rd := 0, rn := 1, lsb := 8, width := 4 } = none := by decide
theorem test_asm_text :
    asmText { cond := 0b1011#4, q := .omitted, rd := 7, rn := 8, lsb := 5, width := 6 } = some "BFILT R7, R8, #5, #6" := by
  rfl
theorem test_suffixes : condOfSuffix "HS" = some 0b0010#4 ∧ condOfSuffix "" = some 0b1110#4 ∧ condOfSuffix "NV" = none := by
  decide

/-! ## The insert (95_test_vectors.md section 4; rule R88) -/

/-- Rows dst, src, lsbit, msbit, result. -/
def insertRows1 : List (Word × Word × Nat × Nat × Word) :=
  [(0xFFFFFFFF#32, 0x12345675#32, 8, 11, 0xFFFFF5FF#32), (0xAAAAAAAA#32, 0x000000FF#32, 4, 11, 0xAAAAAFFA#32),
   (0xDEADBEEF#32, 0xCAFEF00D#32, 0, 31, 0xCAFEF00D#32), (0xDEADBEEE#32, 0xCAFEF00D#32, 0, 0, 0xDEADBEEF#32),
   (0x12345678#32, 0xFFFFFFFF#32, 31, 31, 0x92345678#32), (0x92345678#32, 0xFFFFFFFE#32, 31, 31, 0x12345678#32),
   (0x00FFFFFF#32, 0x000001AB#32, 24, 31, 0xABFFFFFF#32), (0xFFFFFFFF#32, 0x00000000#32, 4, 11, 0xFFFFF00F#32),
   (0x00000000#32, 0xFFFFFFFF#32, 0, 30, 0x7FFFFFFF#32), (0x00000000#32, 0xFFFFFFFF#32, 1, 31, 0xFFFFFFFE#32),
   (0x00000000#32, 0xFFFFFFFF#32, 15, 16, 0x00018000#32), (0x0000FFFF#32, 0xABCD1234#32, 16, 31, 0x1234FFFF#32)]

/-- More rows, and the rows where d = n. -/
def insertRows2 : List (Word × Word × Nat × Nat × Word) :=
  [(0x12345678#32, 0x9ABCDEF0#32, 12, 23, 0x12EF0678#32), (0x80000000#32, 0x7FFFFFFF#32, 0, 30, 0xFFFFFFFF#32),
   (0x01234567#32, 0x89ABCDEF#32, 7, 24, 0x01E6F7E7#32), (0xFFFFFFFF#32, 0xFFFFFFFE#32, 0, 0, 0xFFFFFFFE#32),
   (0x00000000#32, 0x80000000#32, 0, 30, 0x00000000#32), (0x00000000#32, 0x80000000#32, 0, 31, 0x80000000#32),
   (0x12345678#32, 0x12345678#32, 16, 23, 0x12785678#32), (0x12345678#32, 0x12345678#32, 0, 11, 0x12345678#32),
   (0x000000FF#32, 0x000000FF#32, 8, 15, 0x0000FFFF#32), (0xCAFEF00D#32, 0xCAFEF00D#32, 4, 31, 0xAFEF00DD#32)]

theorem test_insert_vectors_1 : insertRows1.all (fun (a, b, l, m, r) => bfi32 a b l m == r) = true := by decide
theorem test_insert_vectors_2 : insertRows2.all (fun (a, b, l, m, r) => bfi32 a b l m == r) = true := by decide

/-! ## Conditions and the IT state (95_test_vectors.md sections 5 and 6) -/

/-- The flags numbered NZCV, as the spec's condition vectors run through them. -/
def flagsOf (k : Nat) : CondFlags :=
  { n := k.testBit 3, z := k.testBit 2, c := k.testBit 1, v := k.testBit 0 }

/-- The sixteen answers for NZCV = 0000 to 1111, the first as the most significant bit. -/
def passes (cond : BitVec 4) : Nat :=
  (List.range 16).foldl (fun acc k => 2 * acc + (conditionHolds cond (flagsOf k)).toNat) 0

theorem test_condition_vectors :
    (List.range 16).map (fun c => passes (BitVec.ofNat 4 c)) =
      [0b0000111100001111, 0b1111000011110000, 0b0011001100110011, 0b1100110011001100,
       0b0000000011111111, 0b1111111100000000, 0b0101010101010101, 0b1010101010101010,
       0b0011000000110000, 0b1100111111001111, 0b1010101001010101, 0b0101010110101010,
       0b1010000001010000, 0b0101111110101111, 0b1111111111111111, 0b1111111111111111] := by decide

theorem test_it_vectors :
    currentCondT32 0x00#8 = some 0b1110#4 ∧ itAdvance 0x00#8 = 0x00#8 ∧
    currentCondT32 0x0C#8 = some 0b0000#4 ∧ itAdvance 0x0C#8 = 0x18#8 ∧
    currentCondT32 0x18#8 = some 0b0001#4 ∧ itAdvance 0x18#8 = 0x00#8 ∧
    currentCondT32 0x08#8 = some 0b0000#4 ∧ itAdvance 0x08#8 = 0x00#8 ∧
    currentCondT32 0xA6#8 = some 0b1010#4 ∧ itAdvance 0xA6#8 = 0xAC#8 ∧
    itAdvance 0xAC#8 = 0xB8#8 ∧ currentCondT32 0xB8#8 = some 0b1011#4 ∧ itAdvance 0xB8#8 = 0x00#8 ∧
    currentCondT32 0x10#8 = none := by decide

/-! ## One step on a small state -/

/-- A launch with one instruction's bytes at the pc, END_PC after it, x[0] = FFFFFFFF and x[1] = 12345675. -/
def launch (iset : ISet) (pc : Word) (bytes : List Byte) : State :=
  let s : State :=
    { State.reset with
      iset := iset
      pc := pc
      endPc := pc + 4#32
      prog := progWriteBytes [] pc.toNat bytes }
  writeGpr (writeGpr s 0 0xFFFFFFFF#32) 1 0x12345675#32

/-- The x[k] and the pc an outcome leaves, where it is a next state. -/
def after (k : Fin 15) : Result → Option (Word × Word)
  | .next s => some (readGpr s k, s.pc)
  | _ => none

/-- The fault an outcome is. -/
def faulted : Result → Option Fault
  | .fault f => some f
  | _ => none

/-- The refusal an outcome is. -/
def refusedBy : Result → Option Refusal
  | .refused r => some r
  | _ => none

/-- BFI R0, R1, #8, #4 in A32 at 1000. -/
def a1State : State := launch .a32 0x1000#32 [0x11#8, 0x04#8, 0xCB#8, 0xE7#8]

/-- The same in T32 at 1002, 2 mod 4. -/
def t1State : State := launch .t32 0x1002#32 [0x61#8, 0xF3#8, 0x0B#8, 0x20#8]

/-- BFIEQ R0, R1, #8, #4 in A32. -/
def eqState : State := launch .a32 0x1000#32 [0x11#8, 0x04#8, 0xCB#8, 0x07#8]

theorem test_step_a1 : after 0 (step a1State) = some (0xFFFFF5FF#32, 0x1004#32) := by decide
theorem test_step_t1_at_2_mod_4 : after 0 (step t1State) = some (0xFFFFF5FF#32, 0x1006#32) := by decide
theorem test_step_eq_fails : after 0 (step eqState) = some (0xFFFFFFFF#32, 0x1004#32) := by decide
theorem test_step_eq_passes :
    after 0 (step { eqState with flags := flagsOf 0b0100 }) = some (0xFFFFF5FF#32, 0x1004#32) := by decide

/-- P4 run A: the first slot of ITE EQ passes with Z = 1, the second fails (95_test_vectors.md section 7). -/
theorem test_t1_in_it_block :
    after 0 (step { t1State with itstate := 0x0C#8, flags := flagsOf 0b0100 }) = some (0xFFFFF5FF#32, 0x1006#32) ∧
    after 0 (step { t1State with itstate := 0x18#8, flags := flagsOf 0b0100 }) = some (0xFFFFFFFF#32, 0x1006#32) := by
  decide

/-- Rd = 1111 faults even with msb < lsb (E7C3F411), and in T32. -/
theorem test_rd_is_pc :
    faulted (step (launch .a32 0x1000#32 [0x11#8, 0xF4#8, 0xC3#8, 0xE7#8])) = some .unpredictableRdIsPc ∧
    faulted (step (launch .t32 0x1000#32 [0x61#8, 0xF3#8, 0x0B#8, 0x2F#8])) = some .unpredictableRdIsPc := by decide

theorem test_sbz_violated :
    faulted (step (launch .t32 0x1000#32 [0x61#8, 0xF7#8, 0x0B#8, 0x20#8])) = some .unpredictableSbzViolated := by decide
theorem test_bfc_refused :
    refusedBy (step (launch .a32 0x1000#32 [0x1F#8, 0x04#8, 0xCB#8, 0xE7#8])) = some .seeBfc := by decide
theorem test_misaligned_refused :
    refusedBy (step { a1State with pc := 0x1002#32 }) = some .pcMisaligned ∧
    refusedBy (step { t1State with pc := 0x1001#32 }) = some .pcMisaligned := by decide
theorem test_itstate_refused : refusedBy (step { t1State with itstate := 0x10#8 }) = some .itstateRefused := by decide
theorem test_pc_wraps :
    faulted (step (launch .a32 0xFFFFFFFC#32 [0x11#8, 0x04#8, 0xCB#8, 0xE7#8])) = some .pcWrap := by decide
theorem test_stuck : faulted (step { a1State with pc := 0x2000#32 }) = some .stuck := by decide
theorem test_stuck_at_the_top : faulted (step { t1State with pc := 0xFFFFFFFE#32 }) = some .stuck := by decide
theorem test_ended : faulted (step { a1State with pc := 0x1004#32 }) = some .ended := by decide

/-- From reset, the all-zero-field word of each row runs as the first instruction. -/
theorem test_first_instruction_after_reset :
    after 0 (step (State.reset.withFetchWord 32 0x07C00010)) = some (0#32, 4#32) ∧
    after 0 (step (State.reset.withFetchWord 32 0xF3600000)) = some (0#32, 4#32) := by decide

/-! ## Witnesses: concrete inputs that meet the hypotheses of each statement -/

/-- A state at the last address from which the pc can move on. -/
def topState : State := { t1State with pc := 0xFFFFFFF8#32 }

theorem witness_InsertFormsAgree_ends : (0 ≤ 31 ∧ 31 ≤ 31) ∧ (31 ≤ 31 ∧ 31 ≤ 31) := by decide
theorem witness_InsertLaws_disjoint : (0 ≤ 7 ∧ 7 ≤ 31) ∧ (8 ≤ 31 ∧ 31 ≤ 31) ∧ (7 < 8 ∨ 31 < 0) := by decide
theorem witness_InsertLaws_truncation : (0x12345675#32 : Word).toNat % 2 ^ 4 = (5#32 : Word).toNat % 2 ^ 4 := by decide
theorem witness_A1InsertsField :
    (0b1110#4 ≠ 0b1111#4) ∧ ((31 : BitPos) ≤ 31) ∧ topState.pc.toNat + 4 < 2 ^ 32 ∧
      conditionHolds 0b1110#4 topState.flags = true := by decide
theorem witness_T1InsertsField :
    currentCondT32 topState.itstate = some 0b1110#4 ∧ ((0 : BitPos) ≤ 31) ∧ topState.pc.toNat + 4 < 2 ^ 32 ∧
      conditionHolds 0b1110#4 topState.flags = true := by decide
theorem witness_T1InsertsField_cond_1111 :
    currentCondT32 0xF8#8 = some 0b1111#4 ∧ conditionHolds 0b1111#4 topState.flags = true := by decide
theorem witness_FailedCondition_a1 :
    (0b0000#4 ≠ 0b1111#4) ∧ ((8 : BitPos) ≤ 11) ∧ a1State.pc.toNat + 4 < 2 ^ 32 ∧
      conditionHolds 0b0000#4 a1State.flags = false := by decide
theorem witness_FailedCondition_t1 :
    currentCondT32 { t1State with itstate := 0x08#8 }.itstate = some 0b0000#4 ∧ ((8 : BitPos) ≤ 11) ∧
      { t1State with itstate := 0x08#8 }.pc.toNat + 4 < 2 ^ 32 ∧
      conditionHolds 0b0000#4 { t1State with itstate := 0x08#8 }.flags = false := by decide
theorem witness_NoSynchronousException :
    definedInstr (.bfiA1 0b1110#4 14 0 31 31) = true ∧ definedInstr (.bfiT1 0 14 0 0) = true ∧
      (isetOf (.bfiT1 0 14 0 0) = .t32 → (currentCondT32 t1State.itstate).isSome = true) := by decide
theorem witness_MsbBelowLsb :
    (0b1110#4 ≠ 0b1111#4) ∧ ((0 : BitPos) < 1) ∧ ((0 : BitPos) < 31) ∧ topState.pc.toNat + 4 < 2 ^ 32 ∧
      (currentCondT32 topState.itstate).isSome = true := by decide
theorem witness_DestinationPcFaults : (currentCondT32 t1State.itstate).isSome = true := by decide
theorem witness_PcWrapFaults :
    2 ^ 32 ≤ { t1State with pc := 0xFFFFFFFC#32 }.pc.toNat + 4 ∧ (0b0000#4 ≠ 0b1111#4) ∧
      (currentCondT32 { t1State with pc := 0xFFFFFFFC#32 }.itstate).isSome = true ∧
      ((0 : BitPos) ≤ 0) ∧ ¬ ((1 : BitPos) ≤ 0) := by decide
theorem witness_TermsRefused_itstate : currentCondT32 { t1State with itstate := 0x10#8 }.itstate = none := by decide
theorem witness_A1Frame_and_FlagsNeverWritten : ∃ t, exec (.bfiA1 0b1110#4 0 1 8 11) a1State = .next t := ⟨_, rfl⟩
theorem witness_T1Frame : ∃ t, exec (.bfiT1 0 1 8 11) t1State = .next t := ⟨_, rfl⟩
theorem witness_UnnamedRegister :
    (2 : Fin 15).castSucc ≠ dstOf (.bfiA1 0b1110#4 0 1 8 11) ∧ (2 : Fin 15).castSucc ≠ srcOf (.bfiA1 0b1110#4 0 1 8 11) := by
  decide
theorem witness_SourceBitsAboveWidth :
    srcOf (.bfiA1 0b1110#4 0 1 8 11) = (1 : Fin 15).castSucc ∧
      dstOf (.bfiA1 0b1110#4 0 1 8 11) ≠ srcOf (.bfiA1 0b1110#4 0 1 8 11) ∧
      lsbitOf (.bfiA1 0b1110#4 0 1 8 11) ≤ msbitOf (.bfiA1 0b1110#4 0 1 8 11) ∧
      (5#32 : Word).toNat % 2 ^ 4 = (readGpr a1State 1).toNat % 2 ^ 4 := by decide
theorem witness_ResultVisible_a1 :
    (0b1110#4 ≠ 0b1111#4) ∧ (0b0001#4 ≠ 0b1111#4) ∧ conditionHolds 0b1110#4 a1State.flags = true ∧
      conditionHolds 0b0001#4 a1State.flags = true ∧ ((8 : BitPos) ≤ 11) ∧ ((0 : BitPos) ≤ 31) ∧
      { a1State with pc := 0xFFFFFFF4#32 }.pc.toNat + 8 < 2 ^ 32 := by decide
theorem witness_ResultVisible_t1_it_clear :
    currentCondT32 t1State.itstate = some 0b1110#4 ∧ currentCondT32 (itAdvance t1State.itstate) = some 0b1110#4 ∧
      conditionHolds 0b1110#4 t1State.flags = true ∧ t1State.pc.toNat + 8 < 2 ^ 32 := by decide
theorem witness_ResultVisible_t1_it_block :
    currentCondT32 0x04#8 = some 0b0000#4 ∧ currentCondT32 (itAdvance 0x04#8) = some 0b0000#4 ∧
      conditionHolds 0b0000#4 (flagsOf 0b0100) = true := by decide
theorem witness_DisjointFieldsCommute :
    itClear t1State ∧ ((1 : Fin 15) ≠ 0) ∧ ((2 : Fin 15) ≠ 0) ∧ ((0 : BitPos) ≤ 7) ∧ ((8 : BitPos) ≤ 31) ∧
      ((7 : BitPos) < 8 ∨ (31 : BitPos) < 0) := ⟨rfl, by decide⟩
theorem witness_SeeBfc_a32 :
    (0xE7CB041F#32 : Word).extractLsb' 0 4 = 0b1111#4 ∧ 0xE7CB041F#32 &&& 0x0FE00070#32 = 0x07C00010#32 ∧
      (0xE7CB041F#32 : Word).extractLsb' 28 4 ≠ 0b1111#4 := by decide
theorem witness_SeeBfc_t32 :
    (0xF36F200B#32 : Word).extractLsb' 16 4 = 0b1111#4 ∧ 0xF36F200B#32 &&& 0xFBF08000#32 = 0xF3600000#32 := by decide
theorem witness_Assemblers :
    (assembleA1 { cond := 0b0000#4, q := .omitted, rd := 14, rn := 14, lsb := 31, width := 1 }).isSome = true ∧
      (assembleT1 0b0000#4 { cond := 0b0000#4, q := .wide, rd := 0, rn := 0, lsb := 0, width := 32 }).isSome = true ∧
      (disassemble 0b1110#4 (.bfiT1 0 1 8 11)).isSome = true := by decide
theorem witness_EncodedMsbField :
    decode .a32 0xE7CB0411#32 = .instr (.bfiA1 0b1110#4 0 1 8 11) ∧
      disassemble 0b1110#4 (.bfiA1 0b1110#4 0 1 8 11) =
        some { cond := 0b1110#4, q := .omitted, rd := 0, rn := 1, lsb := 8, width := 4 } ∧
      decode .t32 0xF36E7EDF#32 = .instr (.bfiT1 14 14 31 31) ∧
      (disassemble 0b1110#4 (.bfiT1 14 14 31 31)).isSome = true := by decide
theorem witness_Fetch_and_StepRuns :
    launchRefusal t1State = none ∧ t1State.pc ≠ t1State.endPc ∧ t1State.pc.toNat + 3 < 2 ^ 32 ∧
      progRead t1State.prog 0x1002 = some 0x61#8 ∧ progRead t1State.prog 0x1003 = some 0xF3#8 ∧
      progRead t1State.prog 0x1004 = some 0x0B#8 ∧ progRead t1State.prog 0x1005 = some 0x20#8 ∧
      decodeBytes t1State.iset 0x61#8 0xF3#8 0x0B#8 0x20#8 = .instr (.bfiT1 0 1 8 11) := by decide
theorem witness_StepStops :
    launchRefusal (launch .a32 0x1000#32 [0x11#8, 0x04#8, 0xCB#8, 0xF7#8]) = none ∧
      fetch (launch .a32 0x1000#32 [0x11#8, 0x04#8, 0xCB#8, 0xF7#8]) = some 0xF7CB0411#32 ∧
      decode .a32 0xF7CB0411#32 = .refuse .cond1111 := by decide
theorem witness_Stuck_both_ways :
    launchRefusal a1State = none ∧ a1State.pc ≠ a1State.endPc ∧ progRead a1State.prog (a1State.pc.toNat + 3) ≠ none ∧
      launchRefusal { a1State with pc := 0x2000#32 } = none ∧
      progRead { a1State with pc := 0x2000#32 }.prog (0x2000 + 0) = none := by decide
theorem witness_LaunchRefused :
    (a1State.iset = .a32 ∧ { a1State with pc := 0x1001#32 }.pc.toNat % 4 ≠ 0) ∧
      (t1State.iset = .t32 ∧ { t1State with pc := 0x1003#32 }.pc.toNat % 2 ≠ 0) ∧
      (t1State.pc.toNat % 2 = 0 ∧ (0x10#8 : BitVec 8).toNat % 16 = 0 ∧ (0x10#8 : BitVec 8).toNat ≠ 0) := by decide
theorem witness_Ended :
    (State.reset.iset = .a32 ∧ State.reset.pc.toNat % 4 = 0 ∧ State.reset.pc = State.reset.endPc) ∧
      { t1State with pc := 0x1006#32 }.pc.toNat % 2 = 0 ∧ { t1State with pc := 0x1006#32 }.pc = t1State.endPc ∧
      ((0x01#8 : BitVec 8).toNat = 0 ∨ (0x01#8 : BitVec 8).toNat % 16 ≠ 0) := by decide
theorem witness_TermsRefused_others :
    (0b1110#4 ≠ 0b1111#4) ∧ (currentCondT32 t1State.itstate).isSome = true := by decide
theorem witness_DecodeOfEncode_and_EncodeOfDecode :
    wellFormed (.bfiA1 0b0000#4 15 14 31 0) = true ∧ wellFormed (.bfiT1 15 14 31 0) = true ∧
      decode .a32 (encode (.bfiA1 0b0000#4 15 14 31 0)) = .instr (.bfiA1 0b0000#4 15 14 31 0) ∧
      decode .t32 (encode (.bfiT1 15 14 31 0)) = .instr (.bfiT1 15 14 31 0) := by decide
theorem witness_every_step : ∃ t, step a1State = .next t := ⟨_, rfl⟩
theorem witness_every_step_t32 : ∃ t, step t1State = .next t := ⟨_, rfl⟩
theorem witness_EveryStepKeepsInv : Inv a1State ∧ Inv t1State := ⟨⟨by decide, by decide⟩, by decide, by decide⟩
theorem witness_progMapped : progMapped t1State := by
  refine ⟨by decide, by decide, fun a h1 h2 => ?_⟩
  have h1 : 0x1002 ≤ a := h1
  have h2 : a < 0x1006 := h2
  interval_cases a <;> decide
theorem witness_allDefined : allDefined t1State := by
  intro k h
  have h : 0x1002 + 4 * k < 0x1006 := h
  have : k = 0 := by omega
  subst this
  exact ⟨0xF361200B#32, .bfiT1 0 1 8 11, by decide, by decide, by decide⟩

end Sys2Proof.Tests
end

section
/-! PROOFS, family encoding. First the facts about the fields a word decodes to, the assembler's operands and the
disassembler's line; then O21, O45 and O46 from them. -/

namespace Sys2Proof.Encoding

open Sys2Proof.Machine

/-! ## The operand fields of the decoder -/

/-- The constraints `!= 1111` on the operands of A1 (rule R56). -/
theorem wellFormed_bfiA1 (c : BitVec 4) (d n : RegNum) (l m : BitPos) :
    wellFormed (.bfiA1 c d n l m) = true ↔ c ≠ 0b1111#4 ∧ n.val ≠ 15 := by
  simp [wellFormed, Fin.ext_iff]

/-- The constraint `!= 1111` on the operands of T1 (rule R59). -/
theorem wellFormed_bfiT1 (d n : RegNum) (l m : BitPos) : wellFormed (.bfiT1 d n l m) = true ↔ n.val ≠ 15 := by
  simp [wellFormed, Fin.ext_iff]

/-- The A1 operands are the values of their fields (rule R62). -/
theorem fieldsA1_eq_iff (w : Word) (c : BitVec 4) (d n : RegNum) (l m : BitPos) :
    fieldsA1 w = .bfiA1 c d n l m ↔
      w.extractLsb' 28 4 = c ∧ (w.extractLsb' 12 4).toNat = d.val ∧ (w.extractLsb' 0 4).toNat = n.val ∧
      (w.extractLsb' 7 5).toNat = l.val ∧ (w.extractLsb' 16 5).toNat = m.val := by
  simp only [fieldsA1, Instr.bfiA1.injEq, regField_eq, posField_eq]

/-- The T1 operands are the values of their fields, lsbit being imm3:imm2 (rule R63). -/
theorem fieldsT1_eq_iff (w : Word) (d n : RegNum) (l m : BitPos) :
    fieldsT1 w = .bfiT1 d n l m ↔
      (w.extractLsb' 8 4).toNat = d.val ∧ (w.extractLsb' 16 4).toNat = n.val ∧
      (w.extractLsb' 12 3).toNat * 2 ^ 2 + (w.extractLsb' 6 2).toNat = l.val ∧ (w.extractLsb' 0 5).toNat = m.val := by
  rw [← append_toNat]
  simp only [fieldsT1, Instr.bfiT1.injEq, regField_eq]
  exact and_congr_right' (and_congr_right' (and_congr (posField_eq _ _) (posField_eq _ _)))

/-! ## The msb field of an encoded word -/

/-- Bits 20:16 of an A1 word hold msbit (rule R56). -/
theorem encodeA1_msbField (c : BitVec 4) (d n : RegNum) (l m : BitPos) :
    ((encode (.bfiA1 c d n l m)).extractLsb' 16 5).toNat = m.val := by
  rw [field_toNat, encodeA1_toNat]
  omega

/-- Bits 4:0 of a T1 word hold msbit (rule R59). -/
theorem encodeT1_msbField (d n : RegNum) (l m : BitPos) :
    ((encode (.bfiT1 d n l m)).extractLsb' 0 5).toNat = m.val := by
  rw [field_toNat, encodeT1_toNat]
  omega

/-! ## Assembler and disassembler -/

/-- The operand ranges of rules R65, R74 and R75, as propositions. -/
theorem asmInRange_iff (a : AsmLine) :
    asmInRange a = true ↔
      a.rd < 15 ∧ a.rn < 15 ∧ a.lsb ≤ 31 ∧ 1 ≤ a.width ∧ a.width ≤ 32 - a.lsb ∧ a.q ≠ .narrow := by
  simp [asmInRange, and_assoc]

/-- What A32 assembles a line to, and which lines it takes (rule R76). -/
theorem assembleA1_eq_some_iff (a : AsmLine) (i : Instr) :
    assembleA1 a = some i ↔
      asmInRange a = true ∧ a.cond ≠ 0b1111#4 ∧
      .bfiA1 a.cond (Fin.ofNat 16 a.rd) (Fin.ofNat 16 a.rn) (Fin.ofNat 32 a.lsb)
        (Fin.ofNat 32 (a.lsb + a.width - 1)) = i := by
  simp [assembleA1, and_assoc]

/-- What T32 assembles a line to, and which lines it takes (rules R75, R76). -/
theorem assembleT1_eq_some_iff (it : BitVec 4) (a : AsmLine) (i : Instr) :
    assembleT1 it a = some i ↔
      asmInRange a = true ∧ a.cond = it ∧
      .bfiT1 (Fin.ofNat 16 a.rd) (Fin.ofNat 16 a.rn) (Fin.ofNat 32 a.lsb)
        (Fin.ofNat 32 (a.lsb + a.width - 1)) = i := by
  simp [assembleT1, and_assoc]

/-- In range, lsb + width - 1 fits the five bits of the field and lies in lsb..31 (rules R65, R74). -/
theorem msbOperand_of_asmInRange (a : AsmLine) (h : asmInRange a = true) :
    (Fin.ofNat 32 (a.lsb + a.width - 1)).val = a.lsb + a.width - 1 ∧ a.lsb ≤ a.lsb + a.width - 1 ∧
      a.lsb + a.width - 1 ≤ 31 := by
  obtain ⟨-, -, hlsb, hpos, hwidth, -⟩ := (asmInRange_iff a).mp h
  exact ⟨Nat.mod_eq_of_lt (by omega), by omega, by omega⟩

/-- The field of a disassembled line: where it begins, and how wide it is (rules R65, R77). -/
theorem lineOfFields_field (c : BitVec 4) (d n : RegNum) (l m : BitPos) (a : AsmLine)
    (h : lineOfFields c d n l m = some a) : a.lsb = l.val ∧ a.width = m.val - l.val + 1 := by
  unfold lineOfFields at h
  split at h
  · cases h
  · cases h; exact ⟨rfl, rfl⟩

/-- The width of a disassembled line is msbit - lsb + 1, in both encodings (rule R65). -/
theorem disassemble_width (c : BitVec 4) (i : Instr) (a : AsmLine) (h : disassemble c i = some a) :
    a.width = (msbitOf i).val - a.lsb + 1 := by
  cases i with
  | bfiA1 cond d n l m =>
    obtain ⟨hlsb, hwidth⟩ := lineOfFields_field cond d n l m a h
    rw [hlsb]; exact hwidth
  | bfiT1 d n l m =>
    obtain ⟨hlsb, hwidth⟩ := lineOfFields_field c d n l m a h
    rw [hlsb]; exact hwidth

/-! ## The obligations -/

/-- Settles O21: the mask of rule R57 is the two fixed fields, and the decoder's other tests are on its operands. -/
theorem a1Format : Obligations.A1Format := by
  intro w c d n l m
  rw [decode_a32_instr, fixedA1_iff]
  constructor
  · rintro ⟨⟨hop, hlow⟩, hwf, hi⟩
    rw [hi, wellFormed_bfiA1] at hwf
    obtain ⟨hcond, hd, hn, hl, hm⟩ := (fieldsA1_eq_iff w c d n l m).mp hi
    exact ⟨hcond, hwf.1, hop, hm, hd, hl, hlow, hn, hwf.2⟩
  · rintro ⟨hcond, hc, hop, hm, hd, hl, hlow, hn, hn15⟩
    have hi := (fieldsA1_eq_iff w c d n l m).mpr ⟨hcond, hd, hn, hl, hm⟩
    exact ⟨⟨hop, hlow⟩, hi ▸ (wellFormed_bfiA1 c d n l m).mpr ⟨hc, hn15⟩, hi⟩

/-- Settles O45: assembling, the operand msbit is lsb + width - 1 without loss and the encoder puts it in its field;
disassembling, the decoder reads msbit from that field. -/
theorem encodedMsbFieldIsNotTheWidth : Obligations.EncodedMsbFieldIsNotTheWidth := by
  refine ⟨fun a i h => ?_, fun it a i h => ?_, fun w i c a hdec hdis => ?_, fun w i c a hdec hdis => ?_⟩
  · obtain ⟨hrange, -, rfl⟩ := (assembleA1_eq_some_iff a i).mp h
    obtain ⟨hval, hle, h31⟩ := msbOperand_of_asmInRange a hrange
    rw [encodeA1_msbField, hval]
    exact ⟨rfl, hle, h31⟩
  · obtain ⟨hrange, -, rfl⟩ := (assembleT1_eq_some_iff it a i).mp h
    obtain ⟨hval, hle, h31⟩ := msbOperand_of_asmInRange a hrange
    rw [encodeT1_msbField, hval]
    exact ⟨rfl, hle, h31⟩
  · obtain ⟨-, -, rfl⟩ := (decode_a32_instr w i).mp hdec
    exact disassemble_width c (fieldsA1 w) a hdis
  · obtain ⟨-, -, -, rfl⟩ := (decode_t32_instr w i).mp hdec
    exact disassemble_width c (fieldsT1 w) a hdis

/-- Settles O46: the operands are the fields' values, each a quotient and remainder of the word; Rn = 1111 is not
well formed. -/
theorem t1OperandsAreUnsignedFields : Obligations.T1OperandsAreUnsignedFields := by
  intro w d n l m h
  obtain ⟨-, hwf, -, hi⟩ := (decode_t32_instr w _).mp h
  rw [hi, wellFormed_bfiT1] at hwf
  obtain ⟨hd, hn, hl, hm⟩ := (fieldsT1_eq_iff w d n l m).mp hi
  rw [field_toNat] at hd hn hm
  rw [field_toNat, field_toNat] at hl
  omega

end Sys2Proof.Encoding
end

section
/-! PROOFS, family bfi. What the shared operation leaves of the flags and DIT; then O6 from it. -/

namespace Sys2Proof.Bfi

open Sys2Proof.Machine

/-- The shared operation keeps the flags and DIT in each of the four ways it can answer a next state (rule R86). -/
theorem execBfi_keeps_flags_dit (c : BitVec 4) (it : BitVec 8) (d n : RegNum) (l m : BitPos) (s t : State)
    (h : execBfi c it d n l m s = .next t) : t.flags = s.flags ∧ t.dit = s.dit := by
  obtain ⟨d', n', -, -, -, inserted | failed | nop | unknown⟩ := execBfi_next c it d n l m s t h
  · obtain ⟨-, -, rfl⟩ := inserted; simp
  · obtain ⟨-, -, rfl⟩ := failed; simp
  · obtain ⟨-, rfl⟩ := nop; simp
  · obtain ⟨-, rfl⟩ := unknown; simp

/-- What reads as DIT depends on the state's DIT bit alone, whether or not FEAT_DIT is implemented. -/
theorem readDit_congr (s t : State) (h : t.dit = s.dit) : readDit t = readDit s := by
  unfold readDit
  rw [h]

/-- Settles O6: exec answers a next state only through the shared operation, which keeps the flags and DIT. -/
theorem flagsNeverWritten : Obligations.FlagsNeverWritten := by
  intro i s t h
  obtain ⟨c, it, hexec, -⟩ := exec_next i s t h
  obtain ⟨hflags, hdit⟩ := execBfi_keeps_flags_dit c it _ _ _ _ s t hexec
  exact ⟨hflags, hdit, readDit_congr s t hdit⟩

end Sys2Proof.Bfi
end

section
/-! PROOFS, family other: the encodings. What the encoder writes the decoder reads back; the words each stop of the decoder
takes; the assembler's operands. Then O26, O22 to O25, O27 to O31. -/

namespace Sys2Proof.Encoding

open Sys2Proof.Machine

/-! ## The encoder and the operand fields are inverse -/

/-- Each operand of an A1 word stands in its own field (rule R56). -/
theorem fieldsA1_encode (c : BitVec 4) (d n : RegNum) (l m : BitPos) :
    fieldsA1 (encode (.bfiA1 c d n l m)) = .bfiA1 c d n l m := by
  rw [fieldsA1_eq_iff]
  refine ⟨BitVec.eq_of_toNat_eq ?_, ?_, ?_, ?_, ?_⟩ <;> rw [field_toNat, encodeA1_toNat] <;> omega

/-- Each operand of a T1 word stands in its own fields, lsbit in imm3:imm2 (rule R59). -/
theorem fieldsT1_encode (d n : RegNum) (l m : BitPos) : fieldsT1 (encode (.bfiT1 d n l m)) = .bfiT1 d n l m := by
  have hw := encodeT1_toNat d n l m
  have hhigh : (encode (.bfiT1 d n l m)).toNat / 2 ^ 16 = 0xF360 + n.val := by omega
  rw [fieldsT1_eq_iff]
  simp only [field_toNat]
  omega

/-- A well-formed instruction is what its word decodes to. -/
theorem decode_encode (i : Instr) (h : wellFormed i = true) : decode (isetOf i) (encode i) = .instr i := by
  cases i with
  | bfiA1 c d n l m =>
    have hfields := fieldsA1_encode c d n l m
    obtain ⟨hfixed, -⟩ := Laws.EncodingClass.bfiA1 c d n l m
    exact (decode_a32_instr _ _).mpr ⟨hfixed, hfields.symm ▸ h, hfields⟩
  | bfiT1 d n l m =>
    have hfields := fieldsT1_encode d n l m
    obtain ⟨hfixed, hsbz, -⟩ := Laws.EncodingClass.bfiT1 d n l m
    exact (decode_t32_instr _ _).mpr ⟨hfixed, hfields.symm ▸ h, hsbz, hfields⟩

/-- A word with the fixed bits of A1 is made of them and its operand fields (rules R56, R57). -/
theorem encode_fieldsA1 (w : Word) (h : fixedA1 w = true) : encode (fieldsA1 w) = w := by
  obtain ⟨hop, hlow⟩ := (fixedA1_iff w).mp h
  have hop := congrArg BitVec.toNat hop
  have hlow := congrArg BitVec.toNat hlow
  apply BitVec.eq_of_toNat_eq
  rw [fieldsA1, encodeA1_toNat]
  simp only [regField_val, posField_val, field_toNat, BitVec.toNat_ofNat] at hop hlow ⊢
  omega

/-- A word with the fixed bits of T1 and both should-be-zero bits clear is made of them and its operand fields (rules R59,
R60, R68). -/
theorem encode_fieldsT1 (w : Word) (h : fixedT1 w = true) (hsbz : sbzClear w = true) : encode (fieldsT1 w) = w := by
  obtain ⟨htop, hop, hlow⟩ := (fixedT1_iff w).mp h
  obtain ⟨h26, h5⟩ := (sbzClear_iff w).mp hsbz
  have htop := congrArg BitVec.toNat htop
  have hop := congrArg BitVec.toNat hop
  have hlow := congrArg BitVec.toNat hlow
  have h26 := congrArg BitVec.toNat h26
  have h5 := congrArg BitVec.toNat h5
  apply BitVec.eq_of_toNat_eq
  rw [fieldsT1, encodeT1_toNat]
  simp only [regField_val, posField_val, append_toNat, field_toNat, BitVec.toNat_ofNat] at htop hop hlow h26 h5 ⊢
  omega

/-! ## The stops of the decoder, in the order it makes them -/

/-- The decoder's answer on every A32 word (rules R57, R58, R71). -/
theorem decode_a32_eq (w : Word) :
    decode .a32 w =
      if fixedA1 w = true then
        if w.extractLsb' 28 4 = 0b1111#4 then .refuse .cond1111
        else if w.extractLsb' 0 4 = 0b1111#4 then .refuse .seeBfc
        else .instr (fieldsA1 w)
      else .refuse .notBfi := by
  have htests : encodingRefusal (fieldsA1 w) =
      if w.extractLsb' 28 4 = 0b1111#4 then some .cond1111
      else if w.extractLsb' 0 4 = 0b1111#4 then some .seeBfc else none := by
    simp only [encodingRefusal, fieldsA1, regField_eq_15]
  simp only [decode, decodeA32, htests]
  split_ifs <;> rfl

/-- The decoder's answer on every T32 word (rules R60, R61, R68, R71). -/
theorem decode_t32_eq (w : Word) :
    decode .t32 w =
      if fixedT1 w = true then
        if w.extractLsb' 16 4 = 0b1111#4 then .refuse .seeBfc
        else if sbzClear w = true then .instr (fieldsT1 w)
        else .fault .sbzViolated
      else .refuse .notBfi := by
  have htests : encodingRefusal (fieldsT1 w) = if w.extractLsb' 16 4 = 0b1111#4 then some .seeBfc else none := by
    simp only [encodingRefusal, fieldsT1, regField_eq_15]
  simp only [decode, decodeT32, htests]
  split_ifs <;> rfl

/-- The test of the ten fixed bits, as the mask of rule R57. -/
theorem fixedA1_iff_mask (w : Word) : fixedA1 w = true ↔ w &&& 0x0FE00070#32 = 0x07C00010#32 := beq_iff_eq

/-- The test of the twelve fixed bits, as the mask of rule R60. -/
theorem fixedT1_iff_mask (w : Word) : fixedT1 w = true ↔ w &&& 0xFBF08000#32 = 0xF3600000#32 := beq_iff_eq

/-- Bits 25:20 of T1 as the four boxes the diagram of rule R59 draws. -/
theorem opBitsT1_iff_boxes (w : Word) :
    w.extractLsb' 20 6 = 0b110110#6 ↔
      w.extractLsb' 24 2 = 0b11#2 ∧ w.extractLsb' 22 2 = 0b01#2 ∧ w.extractLsb' 21 1 = 0b1#1 ∧
        w.extractLsb' 20 1 = 0b0#1 := by
  simp only [← BitVec.toNat_inj, field_toNat, BitVec.toNat_ofNat]
  omega

/-! ## The assembler's operands -/

/-- In range, the assembler writes every operand without loss (rule R76). -/
theorem operands_of_asmInRange (a : AsmLine) (h : asmInRange a = true) :
    (Fin.ofNat 16 a.rd).val = a.rd ∧ (Fin.ofNat 16 a.rn).val = a.rn ∧ (Fin.ofNat 32 a.lsb).val = a.lsb := by
  obtain ⟨hrd, hrn, hlsb, -⟩ := (asmInRange_iff a).mp h
  exact ⟨Nat.mod_eq_of_lt (by omega), Nat.mod_eq_of_lt (by omega), Nat.mod_eq_of_lt (by omega)⟩

/-- The field of an assembled instruction: from lsb to lsb + width - 1 (rules R65, R76). -/
theorem assembledField (a : AsmLine) (i : Instr) (h : assembleA1 a = some i ∨ ∃ it, assembleT1 it a = some i) :
    (lsbitOf i).val = a.lsb ∧ (msbitOf i).val = a.lsb + a.width - 1 ∧ lsbitOf i ≤ msbitOf i := by
  have hfield (hrange : asmInRange a = true) (hl : lsbitOf i = Fin.ofNat 32 a.lsb)
      (hm : msbitOf i = Fin.ofNat 32 (a.lsb + a.width - 1)) :
      (lsbitOf i).val = a.lsb ∧ (msbitOf i).val = a.lsb + a.width - 1 ∧ lsbitOf i ≤ msbitOf i := by
    obtain ⟨-, -, hlsb⟩ := operands_of_asmInRange a hrange
    obtain ⟨hmsb, hle, -⟩ := msbOperand_of_asmInRange a hrange
    rw [Fin.le_def, hl, hm, hlsb, hmsb]
    exact ⟨rfl, rfl, hle⟩
  obtain h | ⟨it, h⟩ := h
  · obtain ⟨hrange, -, rfl⟩ := (assembleA1_eq_some_iff a i).mp h
    exact hfield hrange rfl rfl
  · obtain ⟨hrange, -, rfl⟩ := (assembleT1_eq_some_iff it a i).mp h
    exact hfield hrange rfl rfl

/-- The operands a line in range assembles to have that line, without its qualifier (rules R76, R77). -/
theorem lineOfFields_of_asmInRange (a : AsmLine) (h : asmInRange a = true) :
    lineOfFields a.cond (Fin.ofNat 16 a.rd) (Fin.ofNat 16 a.rn) (Fin.ofNat 32 a.lsb)
      (Fin.ofNat 32 (a.lsb + a.width - 1)) = some { a with q := .omitted } := by
  obtain ⟨hrd, hrn, hlsb⟩ := operands_of_asmInRange a h
  obtain ⟨hmsb, hle, -⟩ := msbOperand_of_asmInRange a h
  obtain ⟨-, -, -, hpos, -⟩ := (asmInRange_iff a).mp h
  have hwidth : a.lsb + a.width - 1 - a.lsb + 1 = a.width := by omega
  have hnot : ¬ Fin.ofNat 32 (a.lsb + a.width - 1) < Fin.ofNat 32 a.lsb := by
    rw [Fin.lt_def, hlsb, hmsb]
    exact Nat.not_lt.mpr hle
  rw [lineOfFields, if_neg hnot, hrd, hrn, hlsb, hmsb, hwidth]

/-! ## The obligations -/

/-- Settles O26: the word carries its own fixed bits and every operand in its field, and its bytes read back as the
word. -/
theorem decodeOfEncode : Obligations.DecodeOfEncode := by
  intro i h
  have hword := decode_encode i h
  obtain ⟨b0, b1, b2, b3, hbytes, hread⟩ := wordOfBytes_bytesOfWord (isetOf i) (encode i)
  refine ⟨hword, b0, b1, b2, b3, hbytes, ?_⟩
  rw [decodeBytes, hread]
  exact hword

/-- Settles O27: a word is its fixed bits and its operand fields. -/
theorem encodeOfDecode : Obligations.EncodeOfDecode := by
  intro iset w i h
  cases iset with
  | a32 =>
    obtain ⟨hfixed, hwf, rfl⟩ := (decode_a32_instr w i).mp h
    exact ⟨hwf, rfl, encode_fieldsA1 w hfixed⟩
  | t32 =>
    obtain ⟨hfixed, hwf, hsbz, rfl⟩ := (decode_t32_instr w i).mp h
    exact ⟨hwf, rfl, encode_fieldsT1 w hfixed hsbz⟩

/-- Settles O22: the mask of rule R60 is the fixed fields, the should-be-zero test the two (0) bits, and the decoder's other
test is on Rn. -/
theorem t1Format : Obligations.T1Format := by
  intro w d n l m
  rw [decode_t32_instr, fixedT1_iff, sbzClear_iff, opBitsT1_iff_boxes]
  constructor
  · rintro ⟨⟨htop, ⟨h24, h22, h21, h20⟩, h15⟩, hwf, ⟨h26, h5⟩, hi⟩
    rw [hi, wellFormed_bfiT1] at hwf
    obtain ⟨hd, hn, hl, hm⟩ := (fieldsT1_eq_iff w d n l m).mp hi
    exact ⟨htop, h26, h24, h22, h21, h20, hn, hwf, h15, by omega, hd, h5, hm⟩
  · rintro ⟨htop, h26, h24, h22, h21, h20, hn, hn15, h15, hl, hd, h5, hm⟩
    have hi := (fieldsT1_eq_iff w d n l m).mpr ⟨hd, hn, by omega, hm⟩
    exact ⟨⟨htop, ⟨h24, h22, h21, h20⟩, h15⟩, hi ▸ (wellFormed_bfiT1 d n l m).mpr hn15, ⟨h26, h5⟩, hi⟩

/-- Settles O23: the test of Rn comes before the one answer that is an instruction. -/
theorem seeBfcWhateverOtherFields : Obligations.SeeBfcWhateverOtherFields := by
  refine ⟨fun w hn => ⟨fun i => ?_, fun hfixed hcond => ?_⟩, fun w hn => ⟨fun i => ?_, fun hfixed => ?_⟩⟩
  · rw [decode_a32_eq, if_pos hn]
    split_ifs <;> simp
  · rw [decode_a32_eq, if_pos ((fixedA1_iff_mask w).mpr hfixed), if_neg hcond, if_pos hn]
  · rw [decode_t32_eq, if_pos hn]
    split_ifs <;> simp
  · rw [decode_t32_eq, if_pos ((fixedT1_iff_mask w).mpr hfixed), if_pos hn]

/-- Settles O24: the tests of the decoder in their order, each with its own answer. -/
theorem everyOtherWordStopsByName : Obligations.EveryOtherWordStopsByName := by
  refine ⟨fun w => ?_, fun w => ?_⟩
  · simp only [decode_a32_eq, fixedA1_iff_mask]
    split_ifs <;> simp_all
  · simp only [decode_t32_eq, fixedT1_iff_mask, ne_eq, strictMask_iff]
    split_ifs <;> simp_all

/-- Settles O25: bit 23 is 1 in the fixed bits of A1 and 0 in those of T1. -/
theorem noWordIsBfiInBoth : Obligations.NoWordIsBfiInBoth := by
  rintro w i j ⟨ha, ht⟩
  obtain ⟨hfixedA, -, -⟩ := (decode_a32_instr w i).mp ha
  obtain ⟨hfixedT, -, -, -⟩ := (decode_t32_instr w j).mp ht
  obtain ⟨hop, -⟩ := (fixedA1_iff w).mp hfixedA
  obtain ⟨-, hop', -⟩ := (fixedT1_iff w).mp hfixedT
  have hset : w.getLsbD 23 = true := (extract_eq_iff_bits w 21 7 _).mp hop 2 (by omega)
  have hclear : w.getLsbD 23 = false := (extract_eq_iff_bits w 20 6 _).mp hop' 3 (by omega)
  rw [hset] at hclear
  cases hclear

/-- Settles O28: in range no operand is lost in its field, and the disassembler gives the width back from it. -/
theorem msbFieldHoldsLsbPlusWidthMinusOne : Obligations.MsbFieldHoldsLsbPlusWidthMinusOne := by
  refine ⟨assembledField, fun c i a h => ?_, fun a it => ⟨?_, ?_⟩⟩
  · cases i with
    | bfiA1 cond d n l m => exact (lineOfFields_field cond d n l m a h).symm
    | bfiT1 d n l m => exact (lineOfFields_field c d n l m a h).symm
  · rw [← asmInRange_iff]
    simp only [assembleA1_eq_some_iff, exists_and_left, exists_eq', and_true]
  · rw [← asmInRange_iff]
    simp only [assembleT1_eq_some_iff, exists_and_left, exists_eq', and_true]

/-- Settles O29: the word is the sum of its fields, and no operand is lost in its field. -/
theorem assemblerEmits : Obligations.AssemblerEmits := by
  refine ⟨fun a i h => ?_, fun it a i h => ?_⟩
  · obtain ⟨hrange, -, rfl⟩ := (assembleA1_eq_some_iff a i).mp h
    obtain ⟨hrd, hrn, hlsb⟩ := operands_of_asmInRange a hrange
    obtain ⟨hmsb, -, -⟩ := msbOperand_of_asmInRange a hrange
    rw [encodeA1_toNat, hrd, hrn, hlsb, hmsb]
    omega
  · obtain ⟨hrange, -, rfl⟩ := (assembleT1_eq_some_iff it a i).mp h
    obtain ⟨hrd, hrn, hlsb⟩ := operands_of_asmInRange a hrange
    obtain ⟨hmsb, -, h31⟩ := msbOperand_of_asmInRange a hrange
    obtain ⟨hrd15, -, hlsb31, -⟩ := (asmInRange_iff a).mp hrange
    rw [encodeT1_toNat, hrd, hrn, hlsb, hmsb]
    omega

/-- Settles O30: the operands of the line give the line back. -/
theorem disassembleOfAssemble : Obligations.DisassembleOfAssemble := by
  refine ⟨fun a i it h => ?_, fun a i it h => ?_⟩
  · obtain ⟨hrange, -, rfl⟩ := (assembleA1_eq_some_iff a i).mp h
    exact lineOfFields_of_asmInRange a hrange
  · obtain ⟨hrange, rfl, rfl⟩ := (assembleT1_eq_some_iff it a i).mp h
    exact lineOfFields_of_asmInRange a hrange

/-- Settles O31, by running the decoder on each of the six words. -/
theorem workedWordsDecode : Obligations.WorkedWordsDecode :=
  ⟨by decide, by decide, by decide, by decide, by decide, by decide⟩

end Sys2Proof.Encoding
end

section
/-! PROOFS, family other: the insert. Its bits, and from them the laws; then O1 and O2. -/

namespace Sys2Proof.Insert

open Sys2Proof.Machine

/-- The mask has ones exactly inside the field (rule R82). -/
theorem fieldMask_getLsbD (l m i : Nat) (hlm : l ≤ m) (hi : i < 32) :
    (fieldMask l m).getLsbD i = decide (l ≤ i ∧ i ≤ m) := by
  have hpos : i - l < m - l + 1 ↔ i - l ≤ m - l := Nat.lt_succ_iff
  simp only [fieldMask, BitVec.getLsbD_ofNat, hi, decide_true, Bool.true_and, Nat.testBit_mul_two_pow,
    Nat.testBit_two_pow_sub_one]
  by_cases hli : l ≤ i
  · simp only [hli, decide_true, Bool.true_and, true_and, decide_eq_decide]
    omega
  · simp [hli]

/-- The bits of the insert: the source's inside the field, the old destination's outside it. -/
theorem bfi32_getLsbD (a b : Word) (l m i : Nat) (hlm : l ≤ m) (hi : i < 32) :
    (bfi32 a b l m).getLsbD i = if l ≤ i ∧ i ≤ m then b.getLsbD (i - l) else a.getLsbD i := by
  simp only [bfi32, BitVec.getLsbD_or, BitVec.getLsbD_and, BitVec.getLsbD_not, BitVec.getLsbD_shiftLeft,
    fieldMask_getLsbD l m i hlm hi, hi, decide_true, Bool.true_and]
  split_ifs with hin
  · simp [hin]
  · simp [hin]

/-- The bits of the insert as bits of a number, above bit 31 too. -/
theorem bfi32_testBit (a b : Word) (l m i : Nat) (hlm : l ≤ m) (hm : m ≤ 31) :
    (bfi32 a b l m).toNat.testBit i = if l ≤ i ∧ i ≤ m then b.toNat.testBit (i - l) else a.toNat.testBit i := by
  by_cases hi : i < 32
  · exact bfi32_getLsbD a b l m i hlm hi
  · have hout : ¬(l ≤ i ∧ i ≤ m) := by omega
    rw [if_neg hout]
    exact (BitVec.getLsbD_of_ge _ _ (by omega)).trans (BitVec.getLsbD_of_ge _ _ (by omega)).symm

/-! ## The laws (40_bfi.md section 6) -/

/-- Law 1: the field reads back as the low bits of the source. -/
theorem bfi32_readBack (a b : Word) (l m : Nat) (hlm : l ≤ m) (hm : m ≤ 31) :
    (bfi32 a b l m).toNat / 2 ^ l % 2 ^ (m - l + 1) = b.toNat % 2 ^ (m - l + 1) := by
  apply Nat.eq_of_testBit_eq
  intro i
  rw [Nat.testBit_mod_two_pow, Nat.testBit_mod_two_pow, Nat.testBit_div_two_pow, bfi32_testBit a b l m _ hlm hm]
  by_cases hi : i < m - l + 1
  · rw [if_pos (by omega), Nat.add_sub_cancel]
  · simp [hi]

/-- Law 2, for the bits below the field. -/
theorem bfi32_below (a b : Word) (l m : Nat) (hlm : l ≤ m) (hm : m ≤ 31) :
    (bfi32 a b l m).toNat % 2 ^ l = a.toNat % 2 ^ l := by
  apply Nat.eq_of_testBit_eq
  intro i
  rw [Nat.testBit_mod_two_pow, Nat.testBit_mod_two_pow, bfi32_testBit a b l m _ hlm hm]
  by_cases hi : i < l
  · rw [if_neg (by omega)]
  · simp [hi]

/-- Law 2, for the bits above the field. -/
theorem bfi32_above (a b : Word) (l m : Nat) (hlm : l ≤ m) (hm : m ≤ 31) :
    (bfi32 a b l m).toNat / 2 ^ (m + 1) = a.toNat / 2 ^ (m + 1) := by
  apply Nat.eq_of_testBit_eq
  intro i
  rw [Nat.testBit_div_two_pow, Nat.testBit_div_two_pow, bfi32_testBit a b l m _ hlm hm, if_neg (by omega)]

/-- Law 4: only the source's low bits, as many as the field is wide, are used. -/
theorem bfi32_congr_source (a b c : Word) (l m : Nat) (hlm : l ≤ m)
    (h : b.toNat % 2 ^ (m - l + 1) = c.toNat % 2 ^ (m - l + 1)) : bfi32 a b l m = bfi32 a c l m := by
  apply BitVec.eq_of_getLsbD_eq
  intro i hi
  rw [bfi32_getLsbD a b l m i hlm hi, bfi32_getLsbD a c l m i hlm hi]
  split_ifs with hin
  · have hbit := congrArg (Nat.testBit · (i - l)) h
    have hwidth : i - l < m - l + 1 := by omega
    simp only [Nat.testBit_mod_two_pow, hwidth, decide_true, Bool.true_and] at hbit
    exact hbit
  · rfl

/-- Law 6: the last write of a field wins. -/
theorem bfi32_bfi32_same (a b c : Word) (l m : Nat) (hlm : l ≤ m) :
    bfi32 (bfi32 a b l m) c l m = bfi32 a c l m := by
  apply BitVec.eq_of_getLsbD_eq
  intro i hi
  rw [bfi32_getLsbD _ c l m i hlm hi, bfi32_getLsbD a b l m i hlm hi, bfi32_getLsbD a c l m i hlm hi]
  split_ifs <;> rfl

/-- Law 7: inserts into disjoint fields commute. -/
theorem bfi32_comm (a b c : Word) (l1 m1 l2 m2 : Nat) (h1 : l1 ≤ m1) (h2 : l2 ≤ m2) (hdis : m1 < l2 ∨ m2 < l1) :
    bfi32 (bfi32 a b l1 m1) c l2 m2 = bfi32 (bfi32 a c l2 m2) b l1 m1 := by
  apply BitVec.eq_of_getLsbD_eq
  intro i hi
  rw [bfi32_getLsbD _ c l2 m2 i h2 hi, bfi32_getLsbD (bfi32 a c l2 m2) b l1 m1 i h1 hi, bfi32_getLsbD a b l1 m1 i h1 hi,
    bfi32_getLsbD a c l2 m2 i h2 hi]
  have hnot : ¬((l1 ≤ i ∧ i ≤ m1) ∧ (l2 ≤ i ∧ i ≤ m2)) := by omega
  split_ifs with hin2 hin1
  · exact absurd ⟨hin1, hin2⟩ hnot
  · rfl
  · rfl
  · rfl

/-- A number is its bits below the field, its field and its bits above it. -/
theorem split_at_field (N l w : Nat) :
    N = N % 2 ^ l + N / 2 ^ l % 2 ^ w * 2 ^ l + N / 2 ^ (l + w) * 2 ^ (l + w) := by
  have hlow := Nat.mod_add_div N (2 ^ l)
  have hhigh := Nat.mod_add_div (N / 2 ^ l) (2 ^ w)
  rw [Nat.div_div_eq_div_mul, ← pow_add] at hhigh
  calc N = N % 2 ^ l + 2 ^ l * (N / 2 ^ l) := hlow.symm
    _ = N % 2 ^ l + 2 ^ l * (N / 2 ^ l % 2 ^ w + 2 ^ w * (N / 2 ^ (l + w))) := by rw [hhigh]
    _ = N % 2 ^ l + N / 2 ^ l % 2 ^ w * 2 ^ l + N / 2 ^ (l + w) * 2 ^ (l + w) := by rw [pow_add]; ring

/-- Law 9: the insert takes the old field's value away and adds the new one's. -/
theorem bfi32_arith (a b : Word) (l m : Nat) (hlm : l ≤ m) (hm : m ≤ 31) :
    (bfi32 a b l m).toNat + a.toNat / 2 ^ l % 2 ^ (m - l + 1) * 2 ^ l =
      a.toNat + b.toNat % 2 ^ (m - l + 1) * 2 ^ l := by
  have hnew := split_at_field (bfi32 a b l m).toNat l (m - l + 1)
  have hold := split_at_field a.toNat l (m - l + 1)
  have htop : l + (m - l + 1) = m + 1 := by omega
  rw [htop] at hnew hold
  rw [bfi32_below a b l m hlm hm, bfi32_readBack a b l m hlm hm, bfi32_above a b l m hlm hm] at hnew
  omega

/-! ## The obligations -/

/-- Settles O1: the bits of the mask, then of the insert. -/
theorem insertFormsAgree : Obligations.InsertFormsAgree :=
  fun dst src l m hlm _ i hi => bfi32_getLsbD dst src l m i hlm hi

/-- Settles O2, each law from the bits of the insert. -/
theorem insertLaws : Obligations.InsertLaws := by
  refine ⟨fun a b l m hlm hm => ?_, fun a b l m i hlm hm hout => ?_, fun a b => ?_,
    fun a b c l m hlm _ h => bfi32_congr_source a b c l m hlm h, fun a b l m hlm _ => bfi32_bfi32_same a b b l m hlm,
    fun a b c l m hlm _ => bfi32_bfi32_same a b c l m hlm,
    fun a b c l1 m1 l2 m2 h1 _ h2 _ hdis => bfi32_comm a b c l1 m1 l2 m2 h1 h2 hdis, fun a m hm => ?_,
    fun a b l m hlm hm => ?_⟩
  · rw [BitVec.toNat_ushiftRight, Nat.shiftRight_eq_div_pow]
    exact bfi32_readBack a b l m hlm hm
  · exact (bfi32_testBit a b l m i hlm hm).trans (if_neg (by omega))
  · apply BitVec.eq_of_getLsbD_eq
    intro i hi
    rw [bfi32_getLsbD a b 0 31 i (by omega) hi, if_pos (by omega), Nat.sub_zero]
  · apply BitVec.eq_of_getLsbD_eq
    intro i hi
    rw [bfi32_getLsbD a a 0 m i (by omega) hi, Nat.sub_zero, ite_self]
  · rw [BitVec.toNat_ushiftRight, Nat.shiftRight_eq_div_pow]
    have harith := bfi32_arith a b l m hlm hm
    omega

end Sys2Proof.Insert
end

section
/-! PROOFS, family other: what one BFI does. First the state a defined BFI leaves before the pc moves on, the one form every
next state has, and the changes of state a BFI does not notice; then O3 to O5, O7 to O20. -/

namespace Sys2Proof.Exec

open Sys2Proof.Machine

/-! ## More rules about the state -/

/-- Writing a register twice leaves the last value. -/
theorem writeGpr_writeGpr_same (s : State) (k : Fin 15) (v w : Word) :
    writeGpr (writeGpr s k v) k w = writeGpr s k w := by
  simp [writeGpr]

/-- Writes to two registers may be exchanged. -/
theorem writeGpr_comm (s : State) (j k : Fin 15) (v w : Word) (h : j ≠ k) :
    writeGpr (writeGpr s j v) k w = writeGpr (writeGpr s k w) j v := by
  have hval : j.val ≠ k.val := fun e => h (Fin.ext e)
  simp only [writeGpr, Vector.set_comm v w hval]

/-- Writing a register with what it holds changes nothing. -/
theorem writeGpr_readGpr (s : State) (k : Fin 15) : writeGpr s k (readGpr s k) = s := by
  simp [writeGpr, readGpr, Vector.get_eq_getElem]

/-- Writing the IT state with what it holds changes nothing. -/
theorem setItstate_of_eq (s : State) (it : BitVec 8) (h : s.itstate = it) : setItstate s it = s := by
  subst h
  rfl

/-! ## The shared operation: its stops, and the state it completes from -/

/-- A register number is the pc's or names a register. -/
theorem regNum_cases (k : RegNum) : k = 15 ∨ ∃ j : Fin 15, k = j.castSucc := (Fin.eq_castSucc_or_eq_last k).symm

/-- Rn = 1111 is no BFI, whatever the destination (rule R64). -/
theorem execBfi_sourcePc (c : BitVec 4) (it : BitVec 8) (d : RegNum) (l m : BitPos) (s : State) :
    execBfi c it d 15 l m s = .refused .seeBfc := by
  rw [execBfi, gpr?_last]

/-- A destination R15 faults before anything else is looked at (rules R66, R90). -/
theorem execBfi_destinationPc (c : BitVec 4) (it : BitVec 8) (n : Fin 15) (l m : BitPos) (s : State) :
    execBfi c it 15 n.castSucc l m s = .fault .unpredictableRdIsPc := by
  rw [execBfi, gpr?_castSucc, gpr?_last]

/-- The state a defined BFI completes from: the field inserted where the condition holds, else the state as it was (rules
R82, R85). -/
def condInsert (c : BitVec 4) (d n : Fin 15) (l m : BitPos) (s : State) : State :=
  if conditionHolds c s.flags then writeGpr s d (bfi32 (readGpr s d) (readGpr s n) l.val m.val) else s

section
variable (c : BitVec 4) (d n : Fin 15) (l m : BitPos) (s : State)

theorem condInsert_passed (h : conditionHolds c s.flags = true) :
    condInsert c d n l m s = writeGpr s d (bfi32 (readGpr s d) (readGpr s n) l.val m.val) := if_pos h

theorem condInsert_failed (h : conditionHolds c s.flags = false) : condInsert c d n l m s = s := by
  rw [condInsert, h, if_neg Bool.false_ne_true]

@[simp] theorem condInsert_pc : (condInsert c d n l m s).pc = s.pc := by
  unfold condInsert
  split_ifs <;> rfl

@[simp] theorem condInsert_flags : (condInsert c d n l m s).flags = s.flags := by
  unfold condInsert
  split_ifs <;> rfl

@[simp] theorem condInsert_itstate : (condInsert c d n l m s).itstate = s.itstate := by
  unfold condInsert
  split_ifs <;> rfl

/-- The insert does not look at the pc. -/
theorem condInsert_setPc (v : Word) : condInsert c d n l m (setPc s v) = setPc (condInsert c d n l m s) v := by
  cases hc : conditionHolds c s.flags with
  | true => rw [condInsert_passed c d n l m s hc, condInsert_passed c d n l m (setPc s v) hc]; rfl
  | false => rw [condInsert_failed c d n l m s hc, condInsert_failed c d n l m (setPc s v) hc]

/-- The registers where the condition passes: the insert in the destination, every other one as it was. -/
theorem readGpr_condInsert_passed (h : conditionHolds c s.flags = true) (j : Fin 15) :
    readGpr (condInsert c d n l m s) j =
      if j = d then bfi32 (readGpr s d) (readGpr s n) l.val m.val else readGpr s j := by
  rw [condInsert_passed c d n l m s h]
  split_ifs with hj
  · rw [hj, readGpr_writeGpr_same]
  · exact readGpr_writeGpr_other s d j _ hj

/-- A defined BFI completes from `condInsert`. -/
theorem execBfi_defined (it : BitVec 8) (h : l ≤ m) :
    execBfi c it d.castSucc n.castSucc l m s = retire it (condInsert c d n l m s) := by
  cases hc : conditionHolds c s.flags with
  | true => rw [execBfi_passed c it d n l m s h hc, condInsert_passed c d n l m s hc]
  | false => rw [execBfi_failed c it d n l m s h hc, condInsert_failed c d n l m s hc]

/-- A defined BFI with room above the pc. -/
theorem execBfi_defined_fits (it : BitVec 8) (h : l ≤ m) (hpc : s.pc.toNat + 4 < 2 ^ 32) :
    execBfi c it d.castSucc n.castSucc l m s =
      .next (setPc (setItstate (condInsert c d n l m s) it) (s.pc + 4#32)) := by
  rw [execBfi_defined c d n l m s it h, retire_fits it _ (by rwa [condInsert_pc]), condInsert_pc]

/-- Inserts into disjoint fields of one register, from other registers, may be exchanged, whatever the conditions
(40_bfi.md section 6 law 7). -/
theorem condInsert_comm (c' : BitVec 4) (n' : Fin 15) (l' m' : BitPos) (hn : n ≠ d) (hn' : n' ≠ d) (hlm : l ≤ m)
    (hlm' : l' ≤ m') (hdis : m < l' ∨ m' < l) :
    condInsert c' d n' l' m' (condInsert c d n l m s) = condInsert c d n l m (condInsert c' d n' l' m' s) := by
  cases hc : conditionHolds c s.flags with
  | false =>
    rw [condInsert_failed c d n l m s hc, condInsert_failed c d n l m _ (by rwa [condInsert_flags])]
  | true =>
    cases hc' : conditionHolds c' s.flags with
    | false =>
      rw [condInsert_failed c' d n' l' m' s hc', condInsert_failed c' d n' l' m' _ (by rwa [condInsert_flags])]
    | true =>
      rw [condInsert_passed c d n l m s hc, condInsert_passed c' d n' l' m' s hc',
        condInsert_passed c' d n' l' m' _ (by rwa [writeGpr_flags]),
        condInsert_passed c d n l m _ (by rwa [writeGpr_flags])]
      simp only [readGpr_writeGpr_same, readGpr_writeGpr_other _ _ _ _ hn, readGpr_writeGpr_other _ _ _ _ hn',
        writeGpr_writeGpr_same]
      rw [Insert.bfi32_comm _ _ _ _ _ _ _ hlm hlm' hdis]

end

/-- Completing an instruction faults in one way only. -/
theorem retire_fault (it : BitVec 8) (s : State) (r : Fault) (h : retire it s = .fault r) : r = .pcWrap := by
  unfold retire at h
  split at h
  · cases h; rfl
  · cases h

/-- Everything the shared operation can fault with (rules R66, R67, R91). -/
theorem execBfi_fault (c : BitVec 4) (it : BitVec 8) (d n : RegNum) (l m : BitPos) (s : State) (r : Fault)
    (h : execBfi c it d n l m s = .fault r) :
    r = .unpredictableRdIsPc ∨ r = .pcWrap ∨ r = .undefinedInstruction ∧ m < l := by
  obtain rfl | ⟨n, rfl⟩ := regNum_cases n
  · rw [execBfi_sourcePc] at h
    cases h
  obtain rfl | ⟨d, rfl⟩ := regNum_cases d
  · rw [execBfi_destinationPc] at h
    cases h
    exact .inl rfl
  by_cases hlm : l ≤ m
  · rw [execBfi_defined c d n l m s it hlm] at h
    exact .inr (.inl (retire_fault _ _ _ h))
  · have hml := Fin.not_le.mp hlm
    rw [execBfi_msbLtLsb c it d n l m s hml, execMsbLtLsb] at h
    split at h
    · cases h
      exact .inr (.inr ⟨rfl, hml⟩)
    · exact .inr (.inl (retire_fault _ _ _ h))
    · exact .inr (.inl (retire_fault _ _ _ h))

/-- Everything exec can fault with: what the shared operation can. -/
theorem exec_fault (i : Instr) (s : State) (r : Fault) (h : exec i s = .fault r) :
    r = .unpredictableRdIsPc ∨ r = .pcWrap ∨ r = .undefinedInstruction ∧ msbitOf i < lsbitOf i := by
  cases i with
  | bfiA1 c d n l m =>
    by_cases hc : c = 0b1111#4
    · subst hc
      cases h
    · rw [exec_bfiA1 c d n l m s hc] at h
      exact execBfi_fault c _ d n l m s r h
  | bfiT1 d n l m =>
    cases hc : currentCondT32 s.itstate with
    | none =>
      simp only [exec, execBfiT1, hc] at h
      cases h
    | some c =>
      rw [exec_bfiT1 c d n l m s hc] at h
      exact execBfi_fault c _ d n l m s r h

/-- The one form of every next state: at most the destination, the draw counter, the IT state and the pc have changed. -/
theorem execBfi_next_form (c : BitVec 4) (it : BitVec 8) (d n : RegNum) (l m : BitPos) (s t : State)
    (h : execBfi c it d n l m s = .next t) :
    ∃ (d' : Fin 15) (v : Word) (k : Nat), d = d'.castSucc ∧ s.pc.toNat + 4 < 2 ^ 32 ∧
      t = setPc (setItstate (writeGpr { s with draws := k } d' v) it) (s.pc + 4#32) := by
  obtain ⟨d', n', hd, -, hpc, inserted | failed | nop | unknown⟩ := execBfi_next c it d n l m s t h
  · obtain ⟨-, -, rfl⟩ := inserted
    exact ⟨d', _, s.draws, hd, hpc, rfl⟩
  · obtain ⟨-, -, rfl⟩ := failed
    refine ⟨d', readGpr s d', s.draws, hd, hpc, ?_⟩
    exact congrArg (fun u => setPc (setItstate u it) (s.pc + 4#32)) (writeGpr_readGpr s d').symm
  · obtain ⟨-, rfl⟩ := nop
    refine ⟨d', readGpr s d', s.draws + 1, hd, hpc, ?_⟩
    exact congrArg (fun u => setPc (setItstate u it) (s.pc + 4#32)) (writeGpr_readGpr (nextDraw s) d').symm
  · obtain ⟨-, rfl⟩ := unknown
    exact ⟨d', _, s.draws + 1, hd, hpc, rfl⟩

/-- The frame of the shared operation (10_state.md section 1). -/
theorem execBfi_frame (c : BitVec 4) (it : BitVec 8) (d n : RegNum) (l m : BitPos) (s t : State)
    (h : execBfi c it d n l m s = .next t) :
    (∀ k : Fin 15, k.val ≠ d.val → readGpr t k = readGpr s k) ∧ t.flags = s.flags ∧ t.dit = s.dit ∧
      t.itstate = it ∧ t.iset = s.iset ∧ t.endPc = s.endPc ∧ t.prog = s.prog := by
  obtain ⟨d', v, k, rfl, -, rfl⟩ := execBfi_next_form c it d n l m s t h
  refine ⟨fun j hj => ?_, rfl, rfl, rfl, rfl, rfl, rfl⟩
  have hne : j ≠ d' := fun e => hj (congrArg Fin.val e)
  rw [readGpr_setPc, readGpr_setItstate, readGpr_writeGpr_other _ d' j v hne]
  rfl

/-! ## Changes of state a BFI does not notice -/

/-- A change of state that touches nothing a BFI into x[d] reads but registers, and nothing it writes. -/
structure Unnoticed (f : State → State) (d : Fin 15) : Prop where
  pc : ∀ s, (f s).pc = s.pc
  flags : ∀ s, (f s).flags = s.flags
  itstate : ∀ s, (f s).itstate = s.itstate
  draws : ∀ s, (f s).draws = s.draws
  setPc : ∀ s v, setPc (f s) v = f (setPc s v)
  setItstate : ∀ s v, setItstate (f s) v = f (setItstate s v)
  nextDraw : ∀ s, nextDraw (f s) = f (nextDraw s)
  writeGpr : ∀ s v, writeGpr (f s) d v = f (writeGpr s d v)

/-- Other program memory goes unnoticed (20_memory.md section 1). -/
theorem unnoticed_prog (p : List Host.Cell) (d : Fin 15) : Unnoticed (fun t => { t with prog := p }) d := by
  constructor <;> intros <;> rfl

/-- Another value in a register that is not the destination goes unnoticed, but as the source. -/
theorem unnoticed_writeGpr (k : Fin 15) (v : Word) (d : Fin 15) (h : k ≠ d) : Unnoticed (fun t => writeGpr t k v) d where
  pc _ := rfl
  flags _ := rfl
  itstate _ := rfl
  draws _ := rfl
  setPc _ _ := rfl
  setItstate _ _ := rfl
  nextDraw _ := rfl
  writeGpr s w := writeGpr_comm s k d v w h

section
variable {f : State → State} {d : Fin 15} (hf : Unnoticed f d)
include hf

theorem Unnoticed.retire (it : BitVec 8) (s : State) : retire it (f s) = mapNext f (retire it s) := by
  by_cases hpc : s.pc.toNat + 4 < 2 ^ 32
  · rw [retire_fits it s hpc, retire_fits it (f s) (by rwa [hf.pc]), hf.pc, hf.setItstate, hf.setPc]
    rfl
  · rw [retire_wrap it s (by omega), retire_wrap it (f s) (by rw [hf.pc]; omega)]
    rfl

theorem Unnoticed.execMsbLtLsb (it : BitVec 8) (s : State) :
    execMsbLtLsb it d (f s) = mapNext f (execMsbLtLsb it d s) := by
  unfold Machine.execMsbLtLsb
  rw [hf.draws]
  cases Config.cuBehaviour s.draws with
  | undef => rfl
  | nop => rw [hf.nextDraw]; exact hf.retire it _
  | unknown => rw [hf.nextDraw, hf.writeGpr]; exact hf.retire it _

/-- The shared operation does the same after an unnoticed change, if what it would insert is the same. -/
theorem Unnoticed.execBfi (c : BitVec 4) (it : BitVec 8) (n : Fin 15) (l m : BitPos) (s : State)
    (hins : l ≤ m → bfi32 (readGpr (f s) d) (readGpr (f s) n) l.val m.val =
      bfi32 (readGpr s d) (readGpr s n) l.val m.val) :
    execBfi c it d.castSucc n.castSucc l m (f s) = mapNext f (execBfi c it d.castSucc n.castSucc l m s) := by
  by_cases hlm : l ≤ m
  · rw [execBfi_defined _ _ _ _ _ _ _ hlm, execBfi_defined _ _ _ _ _ _ _ hlm, ← hf.retire]
    congr 1
    unfold condInsert
    rw [hf.flags, hins hlm, hf.writeGpr, apply_ite f]
  · rw [execBfi_msbLtLsb _ _ _ _ _ _ _ (Fin.not_le.mp hlm), execBfi_msbLtLsb _ _ _ _ _ _ _ (Fin.not_le.mp hlm)]
    exact hf.execMsbLtLsb it s

end

/-- The shared operation on any register numbers: where one of them is 15 there is no next state to change. -/
theorem execBfi_mapNext (f : State → State) (c : BitVec 4) (it : BitVec 8) (d n : RegNum) (l m : BitPos) (s : State)
    (h : ∀ d' n' : Fin 15, d = d'.castSucc → n = n'.castSucc → Unnoticed f d' ∧
      (l ≤ m → bfi32 (readGpr (f s) d') (readGpr (f s) n') l.val m.val =
        bfi32 (readGpr s d') (readGpr s n') l.val m.val)) :
    execBfi c it d n l m (f s) = mapNext f (execBfi c it d n l m s) := by
  obtain rfl | ⟨n, rfl⟩ := regNum_cases n
  · rw [execBfi_sourcePc, execBfi_sourcePc]
    rfl
  obtain rfl | ⟨d, rfl⟩ := regNum_cases d
  · rw [execBfi_destinationPc, execBfi_destinationPc]
    rfl
  obtain ⟨hf, hins⟩ := h d n rfl rfl
  exact hf.execBfi c it n l m s hins

/-- exec does the same after an unnoticed change, if what it would insert is the same. -/
theorem exec_mapNext (f : State → State) (i : Instr) (s : State) (hit : (f s).itstate = s.itstate)
    (h : ∀ d n : Fin 15, dstOf i = d.castSucc → srcOf i = n.castSucc → Unnoticed f d ∧
      (lsbitOf i ≤ msbitOf i → bfi32 (readGpr (f s) d) (readGpr (f s) n) (lsbitOf i).val (msbitOf i).val =
        bfi32 (readGpr s d) (readGpr s n) (lsbitOf i).val (msbitOf i).val)) :
    exec i (f s) = mapNext f (exec i s) := by
  cases i with
  | bfiA1 c d n l m =>
    by_cases hc : c = 0b1111#4
    · subst hc
      rfl
    · rw [exec_bfiA1 c d n l m _ hc, exec_bfiA1 c d n l m s hc, hit]
      exact execBfi_mapNext f c _ d n l m s h
  | bfiT1 d n l m =>
    cases hc : currentCondT32 s.itstate with
    | none => simp only [exec, execBfiT1, hit, hc, mapNext]
    | some c =>
      rw [exec_bfiT1 c d n l m _ (by rwa [hit]), exec_bfiT1 c d n l m s hc, hit]
      exact execBfi_mapNext f c _ d n l m s h

/-! ## The instructions -/

/-- A defined instruction, where T1 has a condition, completes from a state at the same pc. -/
theorem exec_defined (i : Instr) (s : State) (hi : definedInstr i = true)
    (hcond : isetOf i = .t32 → (currentCondT32 s.itstate).isSome = true) :
    ∃ it u, exec i s = retire it u ∧ u.pc = s.pc := by
  simp only [definedInstr, Bool.and_eq_true, bne_iff_ne, decide_eq_true_eq] at hi
  obtain ⟨⟨hwf, hd⟩, hlm⟩ := hi
  cases i with
  | bfiA1 c d n l m =>
    obtain ⟨hc, hn⟩ := (Encoding.wellFormed_bfiA1 c d n l m).mp hwf
    obtain ⟨d, rfl⟩ := (regNum_cases d).resolve_left hd
    obtain ⟨n, rfl⟩ := (regNum_cases n).resolve_left fun e => hn (congrArg Fin.val e)
    exact ⟨_, _, (exec_bfiA1 c _ _ l m s hc).trans (execBfi_defined c d n l m s _ hlm), condInsert_pc c d n l m s⟩
  | bfiT1 d n l m =>
    have hn := (Encoding.wellFormed_bfiT1 d n l m).mp hwf
    obtain ⟨d, rfl⟩ := (regNum_cases d).resolve_left hd
    obtain ⟨n, rfl⟩ := (regNum_cases n).resolve_left fun e => hn (congrArg Fin.val e)
    obtain ⟨c, hc⟩ := Option.isSome_iff_exists.mp (hcond rfl)
    exact ⟨_, _, (exec_bfiT1 c _ _ l m s hc).trans (execBfi_defined c d n l m s _ hlm), condInsert_pc c d n l m s⟩

/-- Completing an instruction and then running one that completes too. -/
theorem andThen_retire (it it' : BitVec 8) (i : Instr) (u : State) (g : State → State)
    (hrun : ∀ v, exec i (setPc (setItstate u it) v) = retire it' (setPc (g u) v)) :
    andThen (retire it u) i =
      if u.pc.toNat + 4 < 2 ^ 32 then retire it' (setPc (g u) (u.pc + 4#32)) else .fault .pcWrap := by
  split_ifs with hpc
  · rw [retire_fits it u hpc]
    exact hrun _
  · rw [retire_wrap it u (by omega)]
    rfl

/-- Two instructions that complete from inserts under one IT state, into disjoint fields of one register, may be
exchanged. -/
theorem andThen_comm_of_disjoint (i j : Instr) (c c' : BitVec 4) (d n n' : Fin 15) (l m l' m' : BitPos) (s : State)
    (hi : ∀ t : State, t.itstate = s.itstate → exec i t = retire s.itstate (condInsert c d n l m t))
    (hj : ∀ t : State, t.itstate = s.itstate → exec j t = retire s.itstate (condInsert c' d n' l' m' t))
    (hn : n ≠ d) (hn' : n' ≠ d) (hlm : l ≤ m) (hlm' : l' ≤ m') (hdis : m < l' ∨ m' < l) :
    andThen (exec i s) j = andThen (exec j s) i := by
  rw [hi s rfl, hj s rfl, andThen_retire _ s.itstate j _ (condInsert c' d n' l' m'),
    andThen_retire _ s.itstate i _ (condInsert c d n l m), condInsert_pc, condInsert_pc,
    condInsert_comm c d n l m s c' n' l' m' hn hn' hlm hlm' hdis]
  · intro v
    rw [setItstate_of_eq _ _ (condInsert_itstate ..), hi _ (by rw [setPc_itstate, condInsert_itstate]), condInsert_setPc]
  · intro v
    rw [setItstate_of_eq _ _ (condInsert_itstate ..), hj _ (by rw [setPc_itstate, condInsert_itstate]), condInsert_setPc]

/-- Two defined BFIs that follow each other and pass: the second reads what the first left. -/
theorem condInsert_condInsert_passed (c1 c2 : BitVec 4) (it1 it2 : BitVec 8) (d n e k : Fin 15)
    (l1 m1 l2 m2 : BitPos) (s : State) (hc1 : conditionHolds c1 s.flags = true) (hc2 : conditionHolds c2 s.flags = true)
    (h2 : l2 ≤ m2) (hpc : s.pc.toNat + 8 < 2 ^ 32) :
    let new (j : Fin 15) : Word :=
      if j = d then bfi32 (readGpr s d) (readGpr s n) l1.val m1.val else readGpr s j
    ∃ t, execBfi c2 it2 e.castSucc k.castSucc l2 m2
          (setPc (setItstate (condInsert c1 d n l1 m1 s) it1) (s.pc + 4#32)) = .next t ∧
      readGpr t e = bfi32 (new e) (new k) l2.val m2.val ∧ (∀ j, j ≠ e → readGpr t j = new j) ∧
      t.pc = s.pc + 8#32 := by
  intro new
  have hread (j : Fin 15) : readGpr (condInsert c1 d n l1 m1 s) j = new j :=
    readGpr_condInsert_passed c1 d n l1 m1 s hc1 j
  have hpc4 : (s.pc + 4#32).toNat + 4 < 2 ^ 32 := by
    rw [BitVec.toNat_add_of_lt] <;> simp only [BitVec.toNat_ofNat] <;> omega
  refine ⟨_, execBfi_defined_fits c2 e k l2 m2 _ it2 h2 hpc4, ?_, fun j hj => ?_, ?_⟩
  · rw [readGpr_setPc, readGpr_setItstate, readGpr_condInsert_passed _ _ _ _ _ _ (by simpa using hc2), if_pos rfl]
    simp only [readGpr_setPc, readGpr_setItstate, hread]
  · rw [readGpr_setPc, readGpr_setItstate, readGpr_condInsert_passed _ _ _ _ _ _ (by simpa using hc2), if_neg hj]
    simp only [readGpr_setPc, readGpr_setItstate, hread]
  · simp only [setPc_pc, BitVec.add_assoc]
    rfl

/-! ## The condition and the IT state -/

/-- The current condition, by division and remainder (10_state.md section 3). -/
theorem currentCondT32_eq (it : BitVec 8) :
    currentCondT32 it =
      if it.toNat % 16 ≠ 0 then some (BitVec.ofNat 4 (it.toNat / 16))
      else if it.toNat = 0 then some 0b1110#4 else none := by
  have hlow : it.extractLsb' 0 4 = 0b0000#4 ↔ it.toNat % 16 = 0 := by
    simp [← BitVec.toNat_inj]
  have hclear : it = 0b00000000#8 ↔ it.toNat = 0 := by
    rw [← BitVec.toNat_inj]
    rfl
  have hhigh : it.extractLsb' 4 4 = BitVec.ofNat 4 (it.toNat / 16) := by
    rw [BitVec.extractLsb', Nat.shiftRight_eq_div_pow]
  simp only [currentCondT32, bne_iff_ne, ne_eq, hlow, hclear, hhigh]

/-- The advance of the IT state, by division and remainder (10_state.md section 3). -/
theorem itAdvance_toNat (it : BitVec 8) :
    (itAdvance it).toNat = if it.toNat % 8 = 0 then 0 else it.toNat / 32 * 32 + it.toNat * 2 % 32 := by
  have hlow : it.extractLsb' 0 3 = 0b000#3 ↔ it.toNat % 8 = 0 := by
    simp [← BitVec.toNat_inj]
  unfold itAdvance
  simp only [hlow]
  split_ifs with h
  · rfl
  · rw [append_toNat, BitVec.toNat_shiftLeft, BitVec.extractLsb'_toNat, BitVec.extractLsb'_toNat,
      Nat.shiftRight_eq_div_pow, Nat.shiftRight_zero, Nat.shiftLeft_eq]
    have := it.isLt
    omega

/-- T1 under a clear IT state is the shared operation under the condition that always holds, the IT state staying clear
(rule R29). -/
theorem exec_bfiT1_itClear (d n : RegNum) (l m : BitPos) (s : State) (h : s.itstate = 0b00000000#8) :
    exec (.bfiT1 d n l m) s = execBfi 0b1110#4 s.itstate d n l m s := by
  rw [exec_bfiT1 0b1110#4 d n l m s (by rw [h]; rfl), h]
  rfl

/-! ## The obligations -/

/-- Settles O3: A1 is the shared operation with its own condition, which completes with the insert. -/
theorem a1InsertsField : Obligations.A1InsertsField := by
  intro c d n l m s hc hlm hpc hpass mask
  have hrun := execBfi_defined_fits c d n l m s s.itstate hlm hpc
  rw [condInsert_passed c d n l m s hpass, setItstate_of_eq _ _ (writeGpr_itstate ..), ← exec_bfiA1 c _ _ l m s hc] at hrun
  refine ⟨_, hrun, rfl, fun i hi => ?_⟩
  rw [readGpr_setPc, readGpr_writeGpr_same]
  exact Insert.bfi32_getLsbD _ _ _ _ i hlm hi

/-- Settles O4: T1 is the shared operation with the IT state's condition, which completes with the insert. -/
theorem t1InsertsField : Obligations.T1InsertsField := by
  intro c d n l m s hc hlm hpc hpass mask
  have hrun := execBfi_defined_fits c d n l m s (itAdvance s.itstate) hlm hpc
  rw [condInsert_passed c d n l m s hpass, ← exec_bfiT1 c _ _ l m s hc] at hrun
  refine ⟨_, hrun, rfl, fun i hi => ?_⟩
  rw [readGpr_setPc, readGpr_setItstate, readGpr_writeGpr_same]
  exact Insert.bfi32_getLsbD _ _ _ _ i hlm hi

/-- Settles O5: where the condition fails, the shared operation completes from the state as it was. -/
theorem failedConditionOnlyMovesOn : Obligations.FailedConditionOnlyMovesOn := by
  refine ⟨fun c d n l m s hc hlm hpc hfail => ?_, fun c d n l m s hc hlm hpc hfail => ?_⟩
  · rw [exec_bfiA1 c _ _ l m s hc, execBfi_defined_fits c d n l m s _ hlm hpc, condInsert_failed c d n l m s hfail,
      setItstate_of_eq s _ rfl]
  · rw [exec_bfiT1 c _ _ l m s hc, execBfi_defined_fits c d n l m s _ hlm hpc, condInsert_failed c d n l m s hfail]

/-- Settles O7: a defined instruction completes, which fails only for want of room above the pc; of the faults of the
shared operation the exception is the one of msbit < lsbit. -/
theorem noSynchronousException : Obligations.NoSynchronousException := by
  refine ⟨fun i s hi hcond => ?_, fun i s h => ?_⟩
  · obtain ⟨it, u, hrun, hu⟩ := exec_defined i s hi hcond
    by_cases hpc : s.pc.toNat + 4 < 2 ^ 32
    · exact .inl ⟨_, hrun.trans (retire_fits it u (by rwa [hu]))⟩
    · have hpc := Nat.not_lt.mp hpc
      exact .inr ⟨hrun.trans (retire_wrap it u (by rwa [hu])), hpc⟩
  · obtain hr | hr | ⟨-, hml⟩ := exec_fault i s _ h
    · cases hr
    · cases hr
    · exact hml

/-- Settles O8: other program memory goes unnoticed. -/
theorem noDataMemory : Obligations.NoDataMemory :=
  fun i s p => exec_mapNext (fun t => { t with prog := p }) i s rfl fun d _ _ _ => ⟨unnoticed_prog p d, fun _ => rfl⟩

/-- Settles O9: with room above the pc each of the three draws is one outcome. -/
theorem msbBelowLsbDrawsOneOfThree : Obligations.MsbBelowLsbDrawsOneOfThree := by
  refine ⟨fun c d n l m s hc hml hpc => ?_, fun d n l m s hcond hml hpc => ?_⟩
  · rw [exec_bfiA1 c _ _ l m s hc, execBfi_msbLtLsb c _ d n l m s hml, execMsbLtLsb]
    cases Config.cuBehaviour s.draws with
    | undef => rfl
    | nop => exact retire_fits s.itstate (nextDraw s) hpc
    | unknown => exact retire_fits s.itstate (writeGpr (nextDraw s) d (Config.unknownWord s.draws)) hpc
  · obtain ⟨c, hc⟩ := Option.isSome_iff_exists.mp hcond
    rw [exec_bfiT1 c _ _ l m s hc, execBfi_msbLtLsb c _ d n l m s hml, execMsbLtLsb]
    cases Config.cuBehaviour s.draws with
    | undef => rfl
    | nop => exact retire_fits _ (nextDraw s) hpc
    | unknown => exact retire_fits _ (writeGpr (nextDraw s) d (Config.unknownWord s.draws)) hpc

/-- Settles O10: the shared operation tests the destination before the condition and the field. -/
theorem destinationPcFaults : Obligations.DestinationPcFaults := by
  refine ⟨fun c n l m s hc => ?_, fun n l m s hcond => ?_⟩
  · rw [exec_bfiA1 c _ _ l m s hc, execBfi_destinationPc]
  · obtain ⟨c, hc⟩ := Option.isSome_iff_exists.mp hcond
    rw [exec_bfiT1 c _ _ l m s hc, execBfi_destinationPc]

/-- The shared operation at the top of the address space (40_bfi.md section 5). -/
theorem execBfi_wrap (c : BitVec 4) (it : BitVec 8) (d n : Fin 15) (l m : BitPos) (s : State)
    (hpc : 2 ^ 32 ≤ s.pc.toNat + 4) :
    execBfi c it d.castSucc n.castSucc l m s =
      if l ≤ m then .fault .pcWrap
      else match Config.cuBehaviour s.draws with
        | .undef => .fault .undefinedInstruction
        | .nop => .fault .pcWrap
        | .unknown => .fault .pcWrap := by
  split_ifs with hlm
  · rw [execBfi_defined c d n l m s it hlm, retire_wrap it _ (by rwa [condInsert_pc])]
  · rw [execBfi_msbLtLsb c it d n l m s (Fin.not_le.mp hlm), execMsbLtLsb]
    cases Config.cuBehaviour s.draws with
    | undef => rfl
    | nop => exact retire_wrap it (nextDraw s) hpc
    | unknown => exact retire_wrap it (writeGpr (nextDraw s) d (Config.unknownWord s.draws)) hpc

/-- Settles O11: every way to complete needs room above the pc. -/
theorem pcWrapFaults : Obligations.PcWrapFaults := by
  refine ⟨fun c d n l m s hc hpc => ?_, fun d n l m s hcond hpc => ?_⟩
  · exact (exec_bfiA1 c _ _ l m s hc).trans (execBfi_wrap c _ d n l m s hpc)
  · obtain ⟨c, hc⟩ := Option.isSome_iff_exists.mp hcond
    exact (exec_bfiT1 c _ _ l m s hc).trans (execBfi_wrap c _ d n l m s hpc)

/-- Settles O12: the tests of exec and of the shared operation, in their order. -/
theorem termsThatAreNoBfiAreRefused : Obligations.TermsThatAreNoBfiAreRefused := by
  refine ⟨fun d n l m s => rfl, fun c d l m s hc => ?_, fun d l m s hcond => ?_, fun d n l m s hnone => ?_⟩
  · rw [exec_bfiA1 c d _ l m s hc, execBfi_sourcePc]
  · obtain ⟨c, hc⟩ := Option.isSome_iff_exists.mp hcond
    rw [exec_bfiT1 c d _ l m s hc, execBfi_sourcePc]
  · simp only [exec, execBfiT1, hnone]

/-- Settles O13: A1 gives the shared operation the IT state it found. -/
theorem a1Frame : Obligations.A1Frame := by
  intro c d n l m s t h
  obtain ⟨-, hexec⟩ := execBfiA1_next c d n l m s t h
  obtain ⟨hregs, hflags, hdit, hit, hiset, hend, hprog⟩ := execBfi_frame c _ d n l m s t hexec
  exact ⟨hregs, hflags, hdit, hit, hiset, hend, fun a => by rw [hprog]⟩

/-- Settles O14: T1 gives the shared operation the advance of the IT state. -/
theorem t1Frame : Obligations.T1Frame := by
  intro d n l m s t h
  obtain ⟨c, -, hexec⟩ := execBfiT1_next d n l m s t h
  obtain ⟨hregs, hflags, hdit, hit, hiset, hend, hprog⟩ := execBfi_frame c _ d n l m s t hexec
  exact ⟨hregs, hflags, hdit, hit, hiset, hend, fun a => by rw [hprog]⟩

/-- Settles O15: another value in a register that is neither operand goes unnoticed, and both operands read the same. -/
theorem unnamedRegisterNeitherReadNorWritten : Obligations.UnnamedRegisterNeitherReadNorWritten := by
  intro i s k v hkd hkn
  refine exec_mapNext (fun t => writeGpr t k v) i s rfl fun d n hd hn => ?_
  have hd : d ≠ k := fun e => hkd (e ▸ hd.symm)
  have hn : n ≠ k := fun e => hkn (e ▸ hn.symm)
  refine ⟨unnoticed_writeGpr k v d hd.symm, fun _ => ?_⟩
  rw [readGpr_writeGpr_other s k d v hd, readGpr_writeGpr_other s k n v hn]

/-- Settles O16: another value in the source goes unnoticed, and its low bits, all that is inserted, are the same. -/
theorem sourceBitsAboveWidthNotRead : Obligations.SourceBitsAboveWidthNotRead := by
  intro i s n v hsrc hne hlm hlow
  refine exec_mapNext (fun t => writeGpr t n v) i s rfl fun d n' hd hn' => ?_
  obtain rfl : n' = n := Fin.castSucc_injective _ (hn'.symm.trans hsrc)
  have hdn : d ≠ n' := fun e => hne (by rw [hd, hsrc, e])
  refine ⟨unnoticed_writeGpr n' v d hdn.symm, fun _ => ?_⟩
  rw [readGpr_writeGpr_same, readGpr_writeGpr_other s n' d v hdn]
  exact Insert.bfi32_congr_source _ _ _ _ _ hlm hlow

/-- Settles O17: the second BFI runs in the state the first left, whose registers are known. -/
theorem resultVisibleToNextInstruction : Obligations.ResultVisibleToNextInstruction := by
  refine ⟨fun c1 c2 d n e k l1 m1 l2 m2 s hc1 hc2 hp1 hp2 h1 h2 hpc => ?_,
    fun c1 c2 d n e k l1 m1 l2 m2 s hc1 hc2 hp1 hp2 h1 h2 hpc => ?_⟩
  · rw [exec_bfiA1 c1 _ _ l1 m1 s hc1, execBfi_defined_fits c1 d n l1 m1 s _ h1 (by omega)]
    simp only [andThen]
    rw [exec_bfiA1 c2 _ _ l2 m2 _ hc2]
    exact condInsert_condInsert_passed c1 c2 _ _ d n e k l1 m1 l2 m2 s hp1 hp2 h2 hpc
  · rw [exec_bfiT1 c1 _ _ l1 m1 s hc1, execBfi_defined_fits c1 d n l1 m1 s _ h1 (by omega)]
    simp only [andThen]
    rw [exec_bfiT1 c2 _ _ l2 m2 _ (by rwa [setPc_itstate, setItstate_itstate])]
    exact condInsert_condInsert_passed c1 c2 _ _ d n e k l1 m1 l2 m2 s hp1 hp2 h2 hpc

/-- Settles O18: both orders complete from the same inserts, law 7 of the insert exchanging them. -/
theorem disjointFieldsCommute : Obligations.DisjointFieldsCommute := by
  refine ⟨fun c1 c2 d n1 n2 l1 m1 l2 m2 s hc1 hc2 hn1 hn2 h1 h2 hdis => ?_,
    fun d n1 n2 l1 m1 l2 m2 s hclear hn1 hn2 h1 h2 hdis => ?_⟩
  · refine andThen_comm_of_disjoint _ _ c1 c2 d n1 n2 l1 m1 l2 m2 s (fun t ht => ?_) (fun t ht => ?_)
      hn1 hn2 h1 h2 hdis
    · rw [exec_bfiA1 c1 _ _ l1 m1 t hc1, execBfi_defined c1 d n1 l1 m1 t _ h1, ht]
    · rw [exec_bfiA1 c2 _ _ l2 m2 t hc2, execBfi_defined c2 d n2 l2 m2 t _ h2, ht]
  · refine andThen_comm_of_disjoint _ _ 0b1110#4 0b1110#4 d n1 n2 l1 m1 l2 m2 s (fun t ht => ?_) (fun t ht => ?_)
      hn1 hn2 h1 h2 hdis
    · rw [exec_bfiT1_itClear _ _ l1 m1 t (ht.trans hclear), execBfi_defined _ d n1 l1 m1 t _ h1, ht]
    · rw [exec_bfiT1_itClear _ _ l2 m2 t (ht.trans hclear), execBfi_defined _ d n2 l2 m2 t _ h2, ht]

/-- Settles O19: the rows in which the table and rule R83 spell a condition alike, then the three where they differ. -/
theorem conditionTable : Obligations.ConditionTable := by
  intro n z c v holds
  have hls : holds 0b1001#4 = (!c || z) := (Bool.not_and c !z).trans (by rw [Bool.not_not])
  have hgt : holds 0b1100#4 = (!z && n == v) := Bool.and_comm (n == v) !z
  have hle : holds 0b1101#4 = (z || n != v) :=
    (Bool.not_and (n == v) !z).trans (by rw [Bool.not_not, Bool.or_comm]; rfl)
  exact ⟨rfl, rfl, rfl, rfl, rfl, rfl, rfl, rfl, rfl, hls, rfl, rfl, hgt, hle, rfl, rfl⟩

/-- Settles O20: the fields of the IT state as quotients and remainders. -/
theorem itStateAdvances : Obligations.ItStateAdvances := fun it => ⟨currentCondT32_eq it, itAdvance_toNat it⟩

end Sys2Proof.Exec
end

section
/-! PROOFS, family other: fetch, the step and runs. First what a fetch reads and what a step leaves; then O41, O32 to O44. -/

namespace Sys2Proof.Run

open Sys2Proof.Machine

/-! ## Fetch -/

/-- The word of four bytes, by place value (rule R42). -/
theorem wordOfBytes_toNat (iset : ISet) (b0 b1 b2 b3 : Byte) :
    (wordOfBytes iset b0 b1 b2 b3).toNat = match iset with
      | .a32 => b3.toNat * 2 ^ 24 + b2.toNat * 2 ^ 16 + b1.toNat * 2 ^ 8 + b0.toNat
      | .t32 => (b1.toNat * 2 ^ 8 + b0.toNat) * 2 ^ 16 + (b3.toNat * 2 ^ 8 + b2.toNat) := by
  cases iset with
  | a32 =>
    refine (append_toNat _ _).trans ?_
    rw [append_toNat, append_toNat]
    show _ = b3.toNat * 2 ^ 24 + b2.toNat * 2 ^ 16 + b1.toNat * 2 ^ 8 + b0.toNat
    omega
  | t32 =>
    refine (append_toNat _ _).trans ?_
    rw [append_toNat, append_toNat]

/-- A fetch fails exactly where a byte lies past the address space or does not exist (rule R44). -/
theorem fetch_eq_none_iff (s : State) :
    fetch s = none ↔ 2 ^ 32 ≤ s.pc.toNat + 3 ∨ ∃ k < 4, progRead s.prog (s.pc.toNat + k) = none := by
  by_cases hpc : 2 ^ 32 ≤ s.pc.toNat + 3
  · exact iff_of_true (if_pos (by omega)) (.inl hpc)
  · constructor
    · intro hnone
      by_contra hmapped
      push Not at hmapped
      obtain ⟨-, hmapped⟩ := hmapped
      have hbyte (k : Nat) (hk : k < 4) : ∃ b, progRead s.prog (s.pc.toNat + k) = some b :=
        Option.ne_none_iff_exists'.mp (hmapped k hk)
      obtain ⟨b0, h0⟩ := hbyte 0 (by omega)
      obtain ⟨b1, h1⟩ := hbyte 1 (by omega)
      obtain ⟨b2, h2⟩ := hbyte 2 (by omega)
      obtain ⟨b3, h3⟩ := hbyte 3 (by omega)
      rw [fetch_mapped s b0 b1 b2 b3 (by omega) h0 h1 h2 h3] at hnone
      cases hnone
    · rintro (h | ⟨k, hk, hbyte⟩)
      · exact absurd h hpc
      · unfold fetch
        rw [if_neg (by omega)]
        split
        · next b0 b1 b2 b3 h0 h1 h2 h3 =>
          have hsome : (progRead s.prog (s.pc.toNat + k)).isSome = true := by
            interval_cases k
            · exact Option.isSome_of_eq_some h0
            · exact Option.isSome_of_eq_some h1
            · exact Option.isSome_of_eq_some h2
            · exact Option.isSome_of_eq_some h3
          rw [hbyte] at hsome
          cases hsome
        · rfl

/-- A fetch looks at the pc, the instruction set and program memory only. -/
theorem fetch_congr (s t : State) (hpc : t.pc = s.pc) (hiset : t.iset = s.iset) (hprog : t.prog = s.prog) :
    fetch t = fetch s := by
  unfold fetch
  rw [hpc, hiset, hprog]

/-! ## The step -/

/-- Only a fetch is stuck: neither an instruction nor the decoder answers so. -/
theorem runDecoded_ne_stuck (r : Decoded) (s : State) : runDecoded r s ≠ .fault .stuck := by
  intro h
  cases r with
  | instr i =>
    obtain hr | hr | ⟨hr, -⟩ := Exec.exec_fault i s .stuck h <;> cases hr
  | refuse r => cases h
  | fault f => cases f; cases h

/-- A step that answers a next state: the pc moves on by 4 (40_bfi.md section 5). -/
theorem step_next_pc (s t : State) (h : step s = .next t) : t.pc.toNat = s.pc.toNat + 4 := by
  obtain ⟨-, -, w, i, -, -, hexec⟩ := step_next s t h
  obtain ⟨c, it, hshared, -⟩ := exec_next i s t hexec
  obtain ⟨d, v, k, -, hpc, rfl⟩ := Exec.execBfi_next_form c it _ _ _ _ s t hshared
  exact BitVec.toNat_add_of_lt hpc

/-- The instruction set an instruction was decoded in is its own. -/
theorem isetOf_of_decode (iset : ISet) (w : Word) (i : Instr) (h : decode iset w = .instr i) : isetOf i = iset :=
  (Encoding.encodeOfDecode iset w i h).2.1

/-- A step that answers a next state keeps all but the pc, the registers, the draws and, in T32, the IT state. -/
theorem step_next_keeps (s t : State) (h : step s = .next t) :
    t.iset = s.iset ∧ t.prog = s.prog ∧ t.endPc = s.endPc ∧ t.flags = s.flags ∧ t.dit = s.dit ∧
      (s.iset = .a32 → t.itstate = s.itstate) ∧ (s.iset = .t32 → t.itstate = itAdvance s.itstate) := by
  obtain ⟨-, -, w, i, -, hdec, hexec⟩ := step_next s t h
  obtain ⟨c, it, hshared, hit⟩ := exec_next i s t hexec
  obtain ⟨-, hflags, hdit, rfl, hiset, hend, hprog⟩ := Exec.execBfi_frame c it _ _ _ _ s t hshared
  rw [isetOf_of_decode _ w i hdec] at hit
  refine ⟨hiset, hprog, hend, hflags, hdit, fun hs => ?_, fun hs => ?_⟩
  · obtain ⟨-, hit⟩ | ⟨ht32, -⟩ := hit
    · exact hit
    · rw [hs] at ht32; cases ht32
  · obtain ⟨ha32, -⟩ | ⟨-, hit, -⟩ := hit
    · rw [hs] at ha32; cases ha32
    · exact hit

/-- Moving on by 4 keeps the pc aligned (20_memory.md section 4). -/
theorem pcAligned_add_four (iset : ISet) (pc pc' : Word) (hpc : pc'.toNat = pc.toNat + 4)
    (h : pcAligned iset pc = true) : pcAligned iset pc' = true := by
  cases iset <;> simp only [pcAligned, beq_iff_eq] at h ⊢ <;> omega

/-- A step keeps the launch tests (log entry 8). -/
theorem step_next_admitted (s t : State) (h : step s = .next t) : launchRefusal t = none := by
  obtain ⟨hadm, -⟩ := step_next s t h
  obtain ⟨haligned, hit⟩ := (launchRefusal_none s).mp hadm
  obtain ⟨hiset, -, -, -, -, -, hadvance⟩ := step_next_keeps s t h
  rw [launchRefusal_none, hiset]
  refine ⟨pcAligned_add_four _ _ _ (step_next_pc s t h) haligned, ?_⟩
  cases hs : s.iset with
  | a32 => rfl
  | t32 =>
    rw [hs] at hit
    rw [hadvance hs]
    exact itAdvance_admitted s.itstate hit

/-- What an aligned pc is in A32 (rule R43). -/
theorem pcAligned_a32_iff (pc : Word) : pcAligned .a32 pc = true ↔ pc.toNat % 4 = 0 := beq_iff_eq

/-- What an aligned pc is in T32 (rule R43). -/
theorem pcAligned_t32_iff (pc : Word) : pcAligned .t32 pc = true ↔ pc.toNat % 2 = 0 := beq_iff_eq

/-- Which IT states have a condition (rule R29). -/
theorem itstateAdmitted_t32_iff (it : BitVec 8) :
    itstateAdmitted .t32 it = true ↔ it.toNat = 0 ∨ it.toNat % 16 ≠ 0 := by
  simp only [itstateAdmitted, Exec.currentCondT32_eq]
  split_ifs with hlow hclear
  · exact iff_of_true rfl (.inr hlow)
  · exact iff_of_true rfl (.inl hclear)
  · exact iff_of_false Bool.false_ne_true (not_or.mpr ⟨hclear, hlow⟩)

/-- The first launch test (rule R43). -/
theorem step_misaligned (s : State) (h : ¬ pcAligned s.iset s.pc = true) : step s = .refused .pcMisaligned := by
  have hrefused : launchRefusal s = some .pcMisaligned := if_neg h
  simp only [step, hrefused]

/-- The second launch test (rule R29). -/
theorem step_itstateRefused (s : State) (hpc : pcAligned s.iset s.pc = true)
    (h : ¬ itstateAdmitted s.iset s.itstate = true) : step s = .refused .itstateRefused := by
  have hrefused : launchRefusal s = some .itstateRefused := (if_pos hpc).trans (if_neg h)
  simp only [step, hrefused]

/-- An admitted state at END_PC has ended (rule R123). -/
theorem step_ended (s : State) (h : launchRefusal s = none) (he : s.pc = s.endPc) : step s = .fault .ended := by
  simp only [step, h, if_pos he]

/-! ## Runs -/

/-- The pc after a run that answers a state: 4 more per step. -/
theorem run_pc (k : Nat) (s t : State) (h : Host.Core.run Sys2Proof.core k s = .next t) :
    t.pc.toNat = s.pc.toNat + 4 * k := by
  induction k generalizing s with
  | zero => rw [core_run_zero s t h, Nat.mul_zero, Nat.add_zero]
  | succ k ih =>
    obtain ⟨u, hstep, hrun⟩ := core_run_split k s t h
    rw [ih u hrun, step_next_pc s u hstep]
    omega

/-- Before END_PC, straight-line code of defined BFIs has a next step. -/
theorem step_of_allDefined (s : State) (hadm : launchRefusal s = none) (hdef : allDefined s)
    (hpc : s.pc.toNat + 4 ≤ s.endPc.toNat) : ∃ t, step s = .next t := by
  obtain ⟨w, i, hw, hdec, hi⟩ := hdef 0 (by omega)
  have hfetch : fetch s = some w := by
    rw [← hw, wordAt]
    exact fetch_congr _ s (by simp) rfl rfl
  have hne : s.pc ≠ s.endPc := fun e => by rw [e] at hpc; omega
  have hstep : step s = exec i s := by
    rw [step_running s hadm hne, hfetch]
    simp only [hdec, runDecoded]
  obtain ⟨-, hit⟩ := (launchRefusal_none s).mp hadm
  have hcond : isetOf i = .t32 → (currentCondT32 s.itstate).isSome = true := fun ht32 => by
    rw [isetOf_of_decode _ w i hdec] at ht32
    rwa [ht32] at hit
  obtain ⟨t, ht⟩ | ⟨-, hwrap⟩ := Exec.noSynchronousException.1 i s hi hcond
  · exact ⟨t, hstep.trans ht⟩
  · have := s.endPc.isLt
    omega

/-- What is left of straight-line code after a step is straight-line code. -/
theorem allDefined_of_step (s t : State) (h : step s = .next t) (hdef : allDefined s) : allDefined t := by
  obtain ⟨hiset, hprog, hend, -⟩ := step_next_keeps s t h
  have hpc := step_next_pc s t h
  intro k hk
  have haddr : t.pc.toNat + 4 * k = s.pc.toNat + 4 * (k + 1) := by omega
  rw [haddr, hend] at hk
  obtain ⟨w, i, hw, hdec, hi⟩ := hdef (k + 1) hk
  refine ⟨w, i, ?_, by rwa [hiset], hi⟩
  rw [haddr, ← hw]
  exact fetch_congr _ _ rfl hiset hprog

/-- Straight-line code, by the number of instructions left. -/
theorem run_straightLine (k : Nat) (s : State) (hadm : launchRefusal s = none) (hdef : allDefined s)
    (hk : s.endPc.toNat = s.pc.toNat + 4 * k) :
    ∃ t : State, Host.Core.run Sys2Proof.core k s = .next t ∧ t.pc = s.endPc ∧ t.endPc = s.endPc ∧
      launchRefusal t = none ∧ t.flags = s.flags ∧ t.prog = s.prog := by
  induction k generalizing s with
  | zero => exact ⟨s, rfl, BitVec.eq_of_toNat_eq hk.symm, rfl, hadm, rfl, rfl⟩
  | succ k ih =>
    obtain ⟨u, hstep⟩ := step_of_allDefined s hadm hdef (by omega)
    obtain ⟨-, hprog, hend, hflags, -⟩ := step_next_keeps s u hstep
    have hpc := step_next_pc s u hstep
    obtain ⟨t, hrun, ht, htend, htadm, htflags, htprog⟩ :=
      ih u (step_next_admitted s u hstep) (allDefined_of_step s u hstep hdef) (by rw [hend]; omega)
    exact ⟨t, (core_run_next k s u hstep).trans hrun, ht.trans hend, htend.trans hend, htadm, htflags.trans hflags,
      htprog.trans hprog⟩

/-! ## Placing a word -/

/-- Bytes written at rising addresses inside the space read back. -/
theorem progRead_progWriteBytes (bs : List Byte) (m : List Host.Cell) (k i : Nat) (hi : i < bs.length)
    (hspace : k + bs.length ≤ 2 ^ 32) : progRead (progWriteBytes m k bs) (k + i) = some bs[i] := by
  induction bs generalizing m k i with
  | nil => exact absurd hi (Nat.not_lt_zero i)
  | cons v rest ih =>
    rw [List.length_cons] at hi hspace
    unfold progWriteBytes
    cases i with
    | zero =>
      rw [progRead_progWriteBytes_below rest _ (k + 1) (k + 0) (by omega)]
      exact progRead_progWrite_same m k v (by omega)
    | succ i =>
      rw [show k + (i + 1) = k + 1 + i by omega]
      exact ih _ (k + 1) i (by omega) (by omega)

/-- A launch places the word at an aligned pc with room for its four bytes (log entry 22). -/
theorem placePc_spec (iset : ISet) (pc : Word) :
    pcAligned iset (placePc iset pc) = true ∧ (placePc iset pc).toNat + 3 < 2 ^ 32 := by
  unfold placePc
  split
  · next h =>
    rw [Bool.and_eq_true, decide_eq_true_eq] at h
    exact h
  · exact ⟨by cases iset <;> rfl, by decide⟩

/-- A launch that places a word is admitted. -/
theorem placeWord_admitted (iset : ISet) (w : Word) (s : State) : launchRefusal (placeWord iset w s) = none := by
  rw [launchRefusal_none]
  refine ⟨(placePc_spec iset s.pc).1, ?_⟩
  show itstateAdmitted iset (if itstateAdmitted iset s.itstate then s.itstate else 0#8) = true
  split
  · next h => exact h
  · cases iset <;> rfl

/-- A launch that places a word has not ended. -/
theorem placeWord_pc_ne_endPc (iset : ISet) (w : Word) (s : State) :
    (placeWord iset w s).pc ≠ (placeWord iset w s).endPc := by
  show placePc iset s.pc ≠ if s.endPc = placePc iset s.pc then placePc iset s.pc + 4#32 else s.endPc
  split
  · intro h
    have h := congrArg BitVec.toNat h
    rw [BitVec.toNat_add] at h
    simp only [BitVec.toNat_ofNat] at h
    omega
  · next h => exact fun e => h e.symm

/-- A launch that places a word fetches it. -/
theorem fetch_placeWord (iset : ISet) (w : Word) (s : State) : fetch (placeWord iset w s) = some w := by
  obtain ⟨b0, b1, b2, b3, hbytes, hword⟩ := wordOfBytes_bytesOfWord iset w
  have hpc := (placePc_spec iset s.pc).2
  have hread (i : Nat) (hi : i < 4) :
      progRead (placeWord iset w s).prog ((placeWord iset w s).pc.toNat + i) = some [b0, b1, b2, b3][i] := by
    show progRead (progWriteBytes s.prog (placePc iset s.pc).toNat (bytesOfWord iset w)) _ = _
    rw [hbytes]
    exact progRead_progWriteBytes [b0, b1, b2, b3] _ _ i hi (Nat.succ_le_of_lt hpc)
  rw [fetch_mapped _ b0 b1 b2 b3 hpc (hread 0 (by omega)) (hread 1 (by omega)) (hread 2 (by omega)) (hread 3 (by omega))]
  exact congrArg some hword

/-! ## The obligations -/

/-- Settles O41: program memory is kept, and the launch tests hold after a step as they did before it. -/
theorem everyStepKeepsInv : Obligations.EveryStepKeepsInv := by
  rintro s t ⟨hwf, -⟩ h
  obtain ⟨-, hprog, -⟩ := step_next_keeps s t h
  exact ⟨hprog.symm ▸ hwf, step_next_admitted s t h⟩

/-- Settles O32, by place value. -/
theorem fetchAssemblesBytes : Obligations.FetchAssemblesBytes := by
  intro s b0 b1 b2 b3 hpc h0 h1 h2 h3
  refine ⟨_, fetch_mapped s b0 b1 b2 b3 hpc h0 h1 h2 h3, (wordOfBytes_toNat s.iset b0 b1 b2 b3).trans ?_⟩
  cases s.iset <;> rfl

/-- Settles O33: only a failed fetch makes a step stuck. -/
theorem stuckExactlyWhereFetchIsUnmapped : Obligations.StuckExactlyWhereFetchIsUnmapped := by
  intro s hadm hne
  rw [← fetch_eq_none_iff, step_running s hadm hne]
  cases fetch s with
  | none => simp
  | some w => simpa using runDecoded_ne_stuck (decode s.iset w) s

/-- Settles O34: the fetch reads the four bytes. -/
theorem stepRunsDecodedInstruction : Obligations.StepRunsDecodedInstruction := by
  intro s i b0 b1 b2 b3 hadm hne hpc h0 h1 h2 h3 hdec
  rw [step_running s hadm hne, fetch_mapped s b0 b1 b2 b3 hpc h0 h1 h2 h3]
  show runDecoded (decodeBytes s.iset b0 b1 b2 b3) s = exec i s
  rw [hdec]
  rfl

/-- Settles O35: each answer of the decoder that is no instruction is one outcome. -/
theorem stepStopsByDecodersName : Obligations.StepStopsByDecodersName := by
  intro s w hadm hne hfetch
  have hstep : step s = runDecoded (decode s.iset w) s := by rw [step_running s hadm hne, hfetch]
  rw [hstep]
  refine ⟨?_, ?_, ?_, ?_⟩ <;> (intro hdec; rw [hdec]; rfl)

/-- Settles O36: the two launch tests in their order, then the test of END_PC. -/
theorem launchRefusedOrEnded : Obligations.LaunchRefusedOrEnded := by
  intro s
  refine ⟨fun hs hpc => ?_, fun hs hpc => ?_, fun hs hpc hlow hne => ?_, fun hs hpc hend => ?_,
    fun hs hpc hit hend => ?_⟩
  · exact step_misaligned s (by rwa [hs, pcAligned_a32_iff])
  · exact step_misaligned s (by rwa [hs, pcAligned_t32_iff])
  · refine step_itstateRefused s (by rwa [hs, pcAligned_t32_iff]) ?_
    rw [hs, itstateAdmitted_t32_iff]
    omega
  · refine step_ended s ((launchRefusal_none s).mpr ?_) hend
    rw [hs, pcAligned_a32_iff]
    exact ⟨hpc, rfl⟩
  · refine step_ended s ((launchRefusal_none s).mpr ?_) hend
    rw [hs, pcAligned_t32_iff, itstateAdmitted_t32_iff]
    exact ⟨hpc, hit⟩

/-- Settles O37: every next state of the shared operation has the pc 4 higher, and there was room for it. -/
theorem everyStepMovesPcByFour : Obligations.EveryStepMovesPcByFour := step_next_pc

/-- Settles O38: by the frame of the shared operation; the decoder gives A1 in A32 only and T1 in T32 only. -/
theorem stepKeepsRunParameters : Obligations.StepKeepsRunParameters := step_next_keeps

/-- Settles O42: after 2^30 steps the pc would be past the address space. -/
theorem everyRunTerminates : Obligations.EveryRunTerminates := by
  intro s
  refine ⟨2 ^ 30, le_rfl, fun t h => ?_⟩
  have hpc := run_pc _ s t h
  have := t.pc.isLt
  omega

/-- Settles O43: the launch is straight-line code of (END_PC - pc) / 4 instructions. -/
theorem straightLineRunReachesEnd : Obligations.StraightLineRunReachesEnd := by
  rintro s ⟨-, hadm⟩ ⟨hle, hmul, -⟩ hdef
  obtain ⟨t, hrun, hpc, hend, htadm, hflags, hprog⟩ :=
    run_straightLine ((s.endPc.toNat - s.pc.toNat) / 4) s hadm hdef (by omega)
  have hended := step_ended t htadm (hpc.trans hend.symm)
  exact ⟨t, hrun, hpc, hended, by rw [hended]; rfl, hflags, hprog⟩

/-- Settles O44: the launch is admitted, has not ended, and fetches the word. -/
theorem placedWordIsRunNext : Obligations.PlacedWordIsRunNext := by
  intro s w
  have hw : tableWord 32 w.toNat = w := by
    rw [tableWord, Nat.mod_eq_of_lt w.isLt, BitVec.ofNat_toNat, BitVec.setWidth_eq]
  rw [State.withFetchWord, hw, step_running _ (placeWord_admitted _ w s) (placeWord_pc_ne_endPc _ w s),
    fetch_placeWord]
  rfl

/-- Settles O39, by the definition of the reset state and one step of it. -/
theorem resetState : Obligations.ResetState := by
  have hmapped : progMapped State.reset := ⟨le_rfl, rfl, fun a hlo hhi => absurd (hlo.trans_lt hhi) (lt_irrefl _)⟩
  refine ⟨fun k => ?_, rfl, rfl, rfl, rfl, rfl, rfl, rfl, hmapped, rfl⟩
  simp [readGpr, State.reset, Vector.get_eq_getElem]

/-- Settles O40: program memory lists nothing, the pc is 0, and A32 reads no IT state. -/
theorem invAtReset : Obligations.InvAtReset := ⟨reset_memory_wf, rfl⟩

end Sys2Proof.Run
end
